-- ==== Sys2Proof/Word.lean ====
section
/-! DEFINITION. The word and byte types (spec/00_scope.md R2, R5; spec/20_memory.md R31). -/

namespace Sys2Proof

/-- A word: the 32 bits of a register, of an address, of an instruction (R2, R5). -/
abbrev Word := BitVec 32

/-- The least addressable unit, 8 bits (R2, R31). -/
abbrev Byte := BitVec 8

end Sys2Proof
end

