-- ==== Sys2Proof/Config.lean ====
section
/-! DEFINITION. The implementation parameters of spec/00_scope.md R3: each names a point the manual leaves open.
All eight are the fields of `Machine.LaunchParams`; the six that a step reads are those of `Params`. -/

namespace Sys2Proof

/-- `OPCODE_MAP`: which of the manual's two opcode numberings the decoder uses (R3, R75, R76). -/
inductive OpcodeMap where
  | section7
  | listing8
  deriving DecidableEq, Repr

/-- `COND_JUMP_BASE`, 0 or 4: what is added to a conditional jump's own address to form its base (R3, R220). -/
inductive CondJumpBase where
  | zero
  | four
  deriving DecidableEq, Repr

/-- A run of byte addresses `base .. base + size - 1`; a set of addresses is a list of these. -/
structure Region where
  base : Nat
  size : Nat
  deriving DecidableEq, Repr

/-- The parameters of R3 that a step reads. Plain data, held in `Machine.State` and written by no instruction
(log entry 1). -/
structure Params where
  /-- `OPCODE_MAP`. -/
  opcodeMap : OpcodeMap
  /-- `STRICT_UNUSED`: a word whose UNUSED bits are not all zero is illegal (R77). -/
  strictUnused : Bool
  /-- `COND_JUMP_BASE`. -/
  condJumpBase : CondJumpBase
  /-- `CMP_TRUE`: what a comparison that holds writes; not zero (R141). -/
  cmpTrue : Word
  /-- `MEM_MAP`: the addresses at which memory exists (R41). -/
  memMap : List Region
  /-- `CODE_REGION`: the addresses a store may not touch (R46). -/
  codeRegion : List Region
  deriving DecidableEq, Repr

namespace Config

/-- The defaults of R3. DESIGN CHOICE (the spec's own, 92_eei_decisions.md D1, D3, D5, D9, D13, D16; log entries 2, 3,
4, 5, 7, 9). CODE_REGION is here at its default for an empty MEM_INIT; for any other,
`Machine.LaunchParams` computes the default from it. -/
def params : Params where
  opcodeMap := .section7
  strictUnused := true
  condJumpBase := .zero
  cmpTrue := 1#32
  memMap := [⟨0, 4294967296⟩]
  codeRegion := []

/-- `RESET_PC`, default 0 (R29). DESIGN CHOICE (the spec's own, D12; log entry 6). -/
def resetPc : Word := 0#32

end Config

/-- What R3 asks of the parameters' values: `CMP_TRUE` is not zero. (What it asks of
`RESET_PC` and of the memory image stands in `Machine.LaunchWf`.) -/
abbrev Params.wf (p : Params) : Prop := p.cmpTrue ≠ 0#32

end Sys2Proof
end

