-- ==== Sys2Proof/Syntax.lean ====
section
/-! DEFINITION. The 36 instructions of spec/opcode_table.json, one constructor a row (spec/30_encoding.md R75).
Operand order is that of the assembly syntax (R82): destination first, then the sources. -/

namespace Sys2Proof

/-- A register number, 0 to 31; all 32 are legal in every register field (R11, R74). -/
abbrev Reg := Fin 32

/-- The instructions. Immediates are the assembled fields, not yet extended (R70 to R73). -/
inductive Instr where
  /-- `nop` (R100). -/
  | nop
  /-- `halt` (R101). -/
  | halt
  /-- `DST = movsi SIMM` (R120). -/
  | movsi (dst : Reg) (simm : BitVec 19)
  /-- `DST = movhi SIMM` (R121). -/
  | movhi (dst : Reg) (simm : BitVec 19)
  /-- `DST = add SRC1, SRC2` (R131). -/
  | add (dst src1 src2 : Reg)
  /-- `DST = sub SRC1, SRC2` (R132). -/
  | sub (dst src1 src2 : Reg)
  /-- `DST = mul SRC1, SRC2` (R133). -/
  | mul (dst src1 src2 : Reg)
  /-- `DST = and SRC1, SRC2` (R134). -/
  | and (dst src1 src2 : Reg)
  /-- `DST = or SRC1, SRC2` (R135). -/
  | or (dst src1 src2 : Reg)
  /-- `DST = xor SRC1, SRC2` (R136). -/
  | xor (dst src1 src2 : Reg)
  /-- `DST = sll SRC1, SRC2` (R137). -/
  | sll (dst src1 src2 : Reg)
  /-- `DST = srl SRC1, SRC2` (R138). -/
  | srl (dst src1 src2 : Reg)
  /-- `DST = sra SRC1, SRC2` (R139). -/
  | sra (dst src1 src2 : Reg)
  /-- `DST = ld [SRC + SIMM]` (R171). -/
  | ld (dst src : Reg) (simm : BitVec 14)
  /-- `DST = ldhs [SRC + SIMM]` (R173). -/
  | ldhs (dst src : Reg) (simm : BitVec 14)
  /-- `DST = ldhu [SRC + SIMM]` (R172). -/
  | ldhu (dst src : Reg) (simm : BitVec 14)
  /-- `DST = ldbs [SRC + SIMM]` (R175). -/
  | ldbs (dst src : Reg) (simm : BitVec 14)
  /-- `DST = ldbu [SRC + SIMM]` (R174). -/
  | ldbu (dst src : Reg) (simm : BitVec 14)
  /-- `st SRC2, [SRC1 + SIMM]` (R191): the value register first, then the base. -/
  | st (src2 src1 : Reg) (simm : BitVec 14)
  /-- `sth SRC2, [SRC1 + SIMM]` (R193). -/
  | sth (src2 src1 : Reg) (simm : BitVec 14)
  /-- `stb SRC2, [SRC1 + SIMM]` (R192). -/
  | stb (src2 src1 : Reg) (simm : BitVec 14)
  /-- `jump ABS_ADDR` (R200). -/
  | jumpAbs (absAddr : BitVec 24)
  /-- `call ABS_ADDR` (R201). -/
  | callAbs (absAddr : BitVec 24)
  /-- `jump SRC` (R210). -/
  | jumpReg (src : Reg)
  /-- `call SRC` (R211, R212). -/
  | callReg (src : Reg)
  /-- `DST = eq SRC1, SRC2` (R142). -/
  | eq (dst src1 src2 : Reg)
  /-- `DST = neq SRC1, SRC2` (R143). -/
  | neq (dst src1 src2 : Reg)
  /-- `DST = slt SRC1, SRC2` (R144). -/
  | slt (dst src1 src2 : Reg)
  /-- `DST = ult SRC1, SRC2` (R145). -/
  | ult (dst src1 src2 : Reg)
  /-- `DST = sle SRC1, SRC2` (R146). -/
  | sle (dst src1 src2 : Reg)
  /-- `DST = ule SRC1, SRC2` (R147). -/
  | ule (dst src1 src2 : Reg)
  /-- `DST = movz SRC1, SRC2` (R110). -/
  | movz (dst src1 src2 : Reg)
  /-- `DST = movnz SRC1, SRC2` (R111). -/
  | movnz (dst src1 src2 : Reg)
  /-- `jumpz SRC, REL_ADDR` (R221). -/
  | jumpz (src : Reg) (relAddr : BitVec 14)
  /-- `jumpnz SRC, REL_ADDR` (R222). -/
  | jumpnz (src : Reg) (relAddr : BitVec 14)
  /-- `DST = addi SRC, SIMM` (R160). -/
  | addi (dst src : Reg) (simm : BitVec 14)
  deriving DecidableEq, Repr

end Sys2Proof
end

