-- ==== Sys2Proof/WellFormed.lean ====
section
/-! DEFINITION. The well-formedness of an instruction's operands. The types of the operands already bound them
(R70 to R74), so the checks left are the two of spec/30_encoding.md that say what a well-formed address field is:
R72 (ABS_ADDR) and R73 (REL14). An ill-formed word still decodes, and its instruction faults when it transfers
control (spec/10_state.md R21); `decodeWord` and the encoder therefore speak of every instruction. -/

namespace Sys2Proof

/-- "Bits 1:0 of a well-formed ABS_ADDR are zero" (R72). -/
def absAddrAligned (a : BitVec 24) : Bool := a.extractLsb' 0 2 == 0#2

/-- "A well-formed REL14 is a multiple of 4" (R73). -/
def relAddrAligned (r : BitVec 14) : Bool := r.extractLsb' 0 2 == 0#2

/-- The operands are ones an assembler writes (R72, R73, R223). -/
def Instr.wellFormed : Instr → Bool
  | .jumpAbs a => absAddrAligned a
  | .callAbs a => absAddrAligned a
  | .jumpz _ r => relAddrAligned r
  | .jumpnz _ r => relAddrAligned r
  | .nop | .halt | .movsi .. | .movhi .. | .add .. | .sub .. | .mul .. | .and .. | .or .. | .xor .. | .sll ..
  | .srl .. | .sra .. | .ld .. | .ldhs .. | .ldhu .. | .ldbs .. | .ldbu .. | .st .. | .sth .. | .stb ..
  | .jumpReg .. | .callReg .. | .eq .. | .neq .. | .slt .. | .ult .. | .sle .. | .ule .. | .movz .. | .movnz ..
  | .addi .. => true

end Sys2Proof
end

