-- ==== Sys2Proof/Decode.lean ====
section
/-! DEFINITION. Decoding and encoding (spec/30_encoding.md). The decoder is total: every word is exactly one
instruction or is rejected with a named reason (R90). The encoder is written from the same tables. -/

namespace Sys2Proof

/-! ### Byte order (spec/20_memory.md R32, R33, R34) -/

/-- The value of bytes in ascending address order: the byte at the lowest address is the most significant (R32). The
result holds the `8n`-bit pattern in its low bits, zeros above. -/
def bigEndian (bs : List Byte) : Word := bs.foldl (fun v b => (v <<< 8) ||| b.setWidth 32) 0#32

/-- The `n` bytes of the low `8n` bits of `v`, in ascending address order (R33). -/
def toBigEndian : Nat → Word → List Byte
  | 0, _ => []
  | n + 1, v => v.extractLsb' (8 * n) 8 :: toBigEndian n v

/-! ### The opcode maps -/

/-- The eight formats of R62 to R69. -/
inductive Format where
  | spc | rrr | mi | ri | st | j | jr | cj
  deriving DecidableEq, Repr

/-- The 36 operations: an instruction without its operands, one per row of the opcode table. -/
inductive Op where
  | nop | halt | movsi | movhi | add | sub | mul | and | or | xor | sll | srl | sra | ld | ldhs | ldhu | ldbs | ldbu
  | st | sth | stb | jumpAbs | callAbs | jumpReg | callReg | eq | neq | slt | ult | sle | ule | movz | movnz | jumpz
  | jumpnz | addi
  deriving DecidableEq, Repr

/-- Why a byte sequence is no instruction. -/
inductive DecodeError where
  /-- The OPC value has no instruction in the chosen map (R78). -/
  | unassignedOpcode
  /-- `STRICT_UNUSED` holds and an UNUSED field is not all zeros (R77). -/
  | unusedNotZero
  /-- Not the four bytes of one instruction (R60). -/
  | notOneWord
  deriving DecidableEq, Repr

/-- The operations in the order of the opcode table. -/
def allOps : List Op :=
  [.nop, .halt, .movsi, .movhi, .add, .sub, .mul, .and, .or, .xor, .sll, .srl, .sra, .ld, .ldhs, .ldhu, .ldbs, .ldbu]
  ++ [.st, .sth, .stb, .jumpAbs, .callAbs, .jumpReg, .callReg, .eq, .neq, .slt, .ult, .sle, .ule, .movz, .movnz,
    .jumpz, .jumpnz, .addi]

/-- The "format" column of R75. -/
def formatOf : Op → Format
  | .nop | .halt => .spc
  | .movsi | .movhi => .mi
  | .add | .sub | .mul | .and | .or | .xor | .sll | .srl | .sra => .rrr
  | .eq | .neq | .slt | .ult | .sle | .ule | .movz | .movnz => .rrr
  | .ld | .ldhs | .ldhu | .ldbs | .ldbu | .addi => .ri
  | .st | .sth | .stb => .st
  | .jumpAbs | .callAbs => .j
  | .jumpReg | .callReg => .jr
  | .jumpz | .jumpnz => .cj

/-- The map `SECTION7` (R75; LDBS is the spec's correction 0x11, 90_conflicts.md C2). -/
def opcodeSection7 : Op → BitVec 8
  | .nop => 0x00 | .halt => 0x01 | .movsi => 0x02 | .movhi => 0x03
  | .add => 0x05 | .sub => 0x06 | .mul => 0x07 | .and => 0x08 | .or => 0x09 | .xor => 0x0A
  | .sll => 0x0B | .srl => 0x0C | .sra => 0x0D
  | .ld => 0x0E | .ldhs => 0x0F | .ldhu => 0x10 | .ldbs => 0x11 | .ldbu => 0x12
  | .st => 0x13 | .sth => 0x14 | .stb => 0x15
  | .jumpAbs => 0x16 | .callAbs => 0x17 | .jumpReg => 0x18 | .callReg => 0x19
  | .eq => 0x1A | .neq => 0x1B | .slt => 0x1C | .ult => 0x1D | .sle => 0x1E | .ule => 0x1F
  | .movz => 0x20 | .movnz => 0x21 | .jumpz => 0x22 | .jumpnz => 0x23 | .addi => 0x24

/-- The map `LISTING8` (R76). -/
def opcodeListing8 : Op → BitVec 8
  | .nop => 0x00 | .halt => 0x01 | .movsi => 0x02 | .movhi => 0x03
  | .add => 0x04 | .sub => 0x05 | .mul => 0x06 | .and => 0x07 | .or => 0x08 | .xor => 0x09
  | .sll => 0x0A | .srl => 0x0B | .sra => 0x0C
  | .ld => 0x0D | .ldhs => 0x0E | .ldhu => 0x0F | .ldbs => 0x10 | .ldbu => 0x11
  | .st => 0x12 | .sth => 0x13 | .stb => 0x14
  | .jumpAbs => 0x15 | .callAbs => 0x16 | .jumpReg => 0x17 | .callReg => 0x18
  | .eq => 0x19 | .neq => 0x1A | .slt => 0x1B | .ult => 0x1C | .sle => 0x1D | .ule => 0x1E
  | .movz => 0x1F | .movnz => 0x20 | .jumpz => 0x21 | .jumpnz => 0x22 | .addi => 0x23

/-- The opcode of an operation under a map (R75, R76). -/
def opcode : OpcodeMap → Op → BitVec 8
  | .section7, op => opcodeSection7 op
  | .listing8, op => opcodeListing8 op

/-- The operation an OPC value names under a map, if any (R75, R76, R78). -/
def opOfOpcode (m : OpcodeMap) (opc : BitVec 8) : Option Op := allOps.find? (fun op => opcode m op == opc)

/-! ### Fields (R62 to R74) -/

/-- The bits of the UNUSED fields of a format (R77). -/
def unusedMask : Format → Word
  | .spc => 0x00FFFFFF
  | .rrr => 0x000001FF
  | .jr => 0x00FFC1FF
  | .cj => 0x00003E00
  | .mi | .ri | .st | .j => 0x00000000

/-- The field OPC (R61). -/
def opcField (w : Word) : BitVec 8 := w.extractLsb' 24 8

/-- The register named by the five bits of `w` from bit `lo` up (R74). -/
def regField (w : Word) (lo : Nat) : Reg := (w.extractLsb' lo 5).toFin

/-- `SIMM19 = bits[23:19] :: bits[13:0]` (R70; DESIGN CHOICE, log entry 10). -/
def simm19Field (w : Word) : BitVec 19 := w.extractLsb' 19 5 ++ w.extractLsb' 0 14

/-- `SIMM14 = bits[23:19] :: bits[8:0]` (R71), and `REL14`, the same bits (R73; DESIGN CHOICE, log entry 10). -/
def simm14Field (w : Word) : BitVec 14 := w.extractLsb' 19 5 ++ w.extractLsb' 0 9

/-- `ABS_ADDR = bits[23:0]` (R72). -/
def absAddrField (w : Word) : BitVec 24 := w.extractLsb' 0 24

/-- The instruction of operation `op` whose operands are the fields of `w`: F-RRR has DST 23:19, SRC1 18:14, SRC2 13:9
(R63); F-MI has DST 18:14 (R64); F-RI has SRC 18:14, DST 13:9 (R65); F-ST has SRC1 18:14, SRC2 13:9 (R66); F-JR has SRC
13:9 (R68); F-CJ has SRC 18:14 (R69). -/
def instrOfFields (op : Op) (w : Word) : Instr :=
  match op with
  | .nop => .nop
  | .halt => .halt
  | .movsi => .movsi (regField w 14) (simm19Field w)
  | .movhi => .movhi (regField w 14) (simm19Field w)
  | .add => .add (regField w 19) (regField w 14) (regField w 9)
  | .sub => .sub (regField w 19) (regField w 14) (regField w 9)
  | .mul => .mul (regField w 19) (regField w 14) (regField w 9)
  | .and => .and (regField w 19) (regField w 14) (regField w 9)
  | .or => .or (regField w 19) (regField w 14) (regField w 9)
  | .xor => .xor (regField w 19) (regField w 14) (regField w 9)
  | .sll => .sll (regField w 19) (regField w 14) (regField w 9)
  | .srl => .srl (regField w 19) (regField w 14) (regField w 9)
  | .sra => .sra (regField w 19) (regField w 14) (regField w 9)
  | .ld => .ld (regField w 9) (regField w 14) (simm14Field w)
  | .ldhs => .ldhs (regField w 9) (regField w 14) (simm14Field w)
  | .ldhu => .ldhu (regField w 9) (regField w 14) (simm14Field w)
  | .ldbs => .ldbs (regField w 9) (regField w 14) (simm14Field w)
  | .ldbu => .ldbu (regField w 9) (regField w 14) (simm14Field w)
  | .st => .st (regField w 9) (regField w 14) (simm14Field w)
  | .sth => .sth (regField w 9) (regField w 14) (simm14Field w)
  | .stb => .stb (regField w 9) (regField w 14) (simm14Field w)
  | .jumpAbs => .jumpAbs (absAddrField w)
  | .callAbs => .callAbs (absAddrField w)
  | .jumpReg => .jumpReg (regField w 9)
  | .callReg => .callReg (regField w 9)
  | .eq => .eq (regField w 19) (regField w 14) (regField w 9)
  | .neq => .neq (regField w 19) (regField w 14) (regField w 9)
  | .slt => .slt (regField w 19) (regField w 14) (regField w 9)
  | .ult => .ult (regField w 19) (regField w 14) (regField w 9)
  | .sle => .sle (regField w 19) (regField w 14) (regField w 9)
  | .ule => .ule (regField w 19) (regField w 14) (regField w 9)
  | .movz => .movz (regField w 19) (regField w 14) (regField w 9)
  | .movnz => .movnz (regField w 19) (regField w 14) (regField w 9)
  | .jumpz => .jumpz (regField w 14) (simm14Field w)
  | .jumpnz => .jumpnz (regField w 14) (simm14Field w)
  | .addi => .addi (regField w 9) (regField w 14) (simm14Field w)

/-- Decoding a fetched word (R90). -/
def decodeWord (m : OpcodeMap) (strictUnused : Bool) (w : Word) : Except DecodeError Instr :=
  match opOfOpcode m (opcField w) with
  | none => .error .unassignedOpcode
  | some op =>
    if strictUnused && (w &&& unusedMask (formatOf op)) != 0#32 then .error .unusedNotZero
    else .ok (instrOfFields op w)

/-- Decoding bytes in ascending address order: exactly the four of one instruction, big-endian (R34, R60, R90). -/
def decodeBytes (m : OpcodeMap) (strictUnused : Bool) (bs : List Byte) : Except DecodeError Instr :=
  match bs with
  | [b0, b1, b2, b3] => decodeWord m strictUnused (bigEndian [b0, b1, b2, b3])
  | _ => .error .notOneWord

/-! ### The encoder -/

/-- The operation of an instruction. -/
def opOf : Instr → Op
  | .nop => .nop
  | .halt => .halt
  | .movsi .. => .movsi
  | .movhi .. => .movhi
  | .add .. => .add
  | .sub .. => .sub
  | .mul .. => .mul
  | .and .. => .and
  | .or .. => .or
  | .xor .. => .xor
  | .sll .. => .sll
  | .srl .. => .srl
  | .sra .. => .sra
  | .ld .. => .ld
  | .ldhs .. => .ldhs
  | .ldhu .. => .ldhu
  | .ldbs .. => .ldbs
  | .ldbu .. => .ldbu
  | .st .. => .st
  | .sth .. => .sth
  | .stb .. => .stb
  | .jumpAbs .. => .jumpAbs
  | .callAbs .. => .callAbs
  | .jumpReg .. => .jumpReg
  | .callReg .. => .callReg
  | .eq .. => .eq
  | .neq .. => .neq
  | .slt .. => .slt
  | .ult .. => .ult
  | .sle .. => .sle
  | .ule .. => .ule
  | .movz .. => .movz
  | .movnz .. => .movnz
  | .jumpz .. => .jumpz
  | .jumpnz .. => .jumpnz
  | .addi .. => .addi

/-- A register number as a five-bit field (R74). -/
def regBits (r : Reg) : BitVec 5 := BitVec.ofFin r

/-- Bits 23:0 of F-RRR (R63). -/
def bitsRRR (dst src1 src2 : Reg) : BitVec 24 := regBits dst ++ regBits src1 ++ regBits src2 ++ 0#9

/-- Bits 23:0 of F-MI: SIMM19[18:14], DST, SIMM19[13:0] (R64, R70). -/
def bitsMI (dst : Reg) (simm : BitVec 19) : BitVec 24 := simm.extractLsb' 14 5 ++ regBits dst ++ simm.extractLsb' 0 14

/-- Bits 23:0 of the formats with a 14-bit immediate cut in two, F-RI, F-ST and F-CJ: the five high bits, the field in
18:14, the field in 13:9, the nine low bits (R65, R66, R69, R71, R73). -/
def bitsSplit14 (hi lo : BitVec 5) (simm : BitVec 14) : BitVec 24 :=
  simm.extractLsb' 9 5 ++ hi ++ lo ++ simm.extractLsb' 0 9

/-- Bits 23:0 of F-JR (R68). -/
def bitsJR (src : Reg) : BitVec 24 := 0#10 ++ regBits src ++ 0#9

/-- Bits 23:0 of an instruction; UNUSED fields are zeros (R62 to R69). -/
def operandBits : Instr → BitVec 24
  | .nop | .halt => 0#24
  | .movsi d i | .movhi d i => bitsMI d i
  | .add d a b | .sub d a b | .mul d a b | .and d a b | .or d a b | .xor d a b => bitsRRR d a b
  | .sll d a b | .srl d a b | .sra d a b => bitsRRR d a b
  | .eq d a b | .neq d a b | .slt d a b | .ult d a b | .sle d a b | .ule d a b => bitsRRR d a b
  | .movz d a b | .movnz d a b => bitsRRR d a b
  | .ld d a i | .ldhs d a i | .ldhu d a i | .ldbs d a i | .ldbu d a i | .addi d a i =>
    bitsSplit14 (regBits a) (regBits d) i
  | .st v a i | .sth v a i | .stb v a i => bitsSplit14 (regBits a) (regBits v) i
  | .jumpAbs t | .callAbs t => t
  | .jumpReg a | .callReg a => bitsJR a
  | .jumpz a r | .jumpnz a r => bitsSplit14 (regBits a) 0#5 r

/-- The one word of an instruction under an opcode map (R60, R61). -/
def encode (m : OpcodeMap) (i : Instr) : Word := opcode m (opOf i) ++ operandBits i

/-! ### The table's words -/

/-- The word whose bits are `w`, of which the table gives `nbits` and the rest are zero. -/
def tableWord (nbits w : Nat) : Word := BitVec.ofNat 32 (w % 2 ^ nbits)

/-- The instruction the decoder reads, with the default parameters, from the bytes of the table's word. -/
def decodeTableWord (nbits w : Nat) : Option Instr :=
  match decodeBytes Config.params.opcodeMap Config.params.strictUnused (toBigEndian 4 (tableWord nbits w)) with
  | .ok i => some i
  | .error _ => none

end Sys2Proof
end

