-- ==== Sys2Proof/Machine/State.lean ====
section
/-! DEFINITION. The state of the machine (spec/10_state.md R10, R25), the reasons a step can stop
(spec/60_exceptions.md R231), and the state after reset (spec/70_reset_and_hazards.md R260). -/

namespace Sys2Proof.Machine

/-- Memory: (address, byte) pairs, addresses strictly rising (`Memory.wf`). An address that is not listed holds no
value (spec/20_memory.md R31, R50). -/
abbrev Memory := List Host.Cell

/-- The canonical form: addresses strictly rise and lie in the 32-bit address space (R30, R31). An unlisted address
holds no value, so no entry can equal what an unlisted address reads as. -/
abbrev Memory.wf (m : Memory) : Prop :=
  m.Pairwise (fun c d => c.1 < d.1) ∧ ∀ c ∈ m, c.1 < 4294967296

/-- The state: exactly what R10 and R25 name, and the launch parameters of spec/00_scope.md R3 (the model's own field,
log entry 1). -/
structure State where
  /-- `r0` to `r31` (R11). -/
  regs : Vector Word 32
  /-- The program counter (R16). -/
  pc : Word
  /-- The unified memory (R30). -/
  mem : Memory
  /-- Set by HALT; a state in which it is true has no step (R25). -/
  halted : Bool
  /-- The parameters of R3, given at launch; no instruction reads them as data or writes them. -/
  params : Params
  deriving DecidableEq, Repr

/-- The faults of R231, and the stop of a halted machine. A fault changes no register, no byte and no `pc` (R230): the
outcome carries no state. All are safe: the model stops where the manual gives no meaning. -/
inductive Fault where
  /-- Raised by the decode of a fetched word that is no instruction: the word and its address (R77, R78, R90). Safe. -/
  | illegalInstruction (bits : Word) (addr : Word)
  /-- Raised by JUMP, CALL, taken JUMPZ and JUMPNZ when the target is not a multiple of 4 (R21). Safe. -/
  | misalignedTarget (target : Word)
  /-- Raised by LD, ST, LDHU, LDHS, STH when the address is not a multiple of the width in bytes (R36). Safe. -/
  | misalignedAccess (addr : Word) (bytes : Nat)
  /-- Raised by the fetch, loads and stores when a byte of the access is outside `MEM_MAP` (R41). Safe. -/
  | accessFault (addr : Word) (bytes : Nat)
  /-- Raised by the fetch and loads when a byte read holds no value (R50). Safe. -/
  | uninitialisedRead (addr : Word) (bytes : Nat)
  /-- Raised by the step of a halted machine, which has none (R19, R25; 93_implementation_defined.md U11: `stuck`).
  Not one of R231's faults: it is the end of the run after HALT. Safe (log entry 15). -/
  | halted
  deriving DecidableEq, Repr

/-- The refusals of R231. -/
inductive Refusal where
  /-- An instruction without a meaning yet, by its mnemonic. No arm of `exec` answers it. Safe. -/
  | notModelled (mnemonic : String)
  /-- Raised by ST, STH, STB when a byte written is in `CODE_REGION` (R46). Safe. -/
  | codeWriteRefused (addr : Word) (bytes : Nat)
  /-- Raised by CALL SRC with SRC = 3, with the instruction's word (R212). Safe. -/
  | ambiguousCallR3 (bits : Word)
  deriving DecidableEq, Repr

/-- What one step answers. -/
abbrev Result := Host.Outcome State Fault Refusal

/-- The machine right after reset (R260): all registers zero (R15), `pc` at the default of `RESET_PC` (R29), not halted
(R25), and the other parameters at their defaults, with an empty `MEM_INIT`: no byte holds a value and no address holds an
instruction (R3, R50; log entries 6, 8 and 9). It is `State.launch` of the defaults. -/
def State.reset : State where
  regs := Vector.replicate 32 0#32
  pc := Config.resetPc
  mem := []
  halted := false
  params := Config.params

end Sys2Proof.Machine
end

