-- ==== Sys2Proof/Machine/Ops.lean ====
section
/-! DEFINITION. The named operations over registers, the program counter and memory: the primitives of
spec/00_scope.md R6, which every meaning is built from. -/

namespace Sys2Proof.Machine

/-! ### Registers and program counter -/

/-- `x[i]` (R6); no register is hard-wired (R12). -/
def State.readReg (s : State) (i : Reg) : Word := s.regs[i.val]

/-- `x[i] <- v` (R6, R12). -/
def State.writeReg (s : State) (i : Reg) (v : Word) : State := { s with regs := s.regs.set i.val v }

/-- `pc <- target` (R6). -/
def State.setPc (s : State) (target : Word) : State := { s with pc := target }

/-- `pc <- A + 4`, modulo 2^32 (R18, R19, R20). -/
def State.advance (s : State) : State := s.setPc (s.pc + 4#32)

/-- The register CALL writes the return address to (R13, R201). -/
def linkReg : Reg := 3

/-! ### Memory -/

/-- What an address that is not listed reads as: no value (R50; log entry 8). -/
def Memory.unlisted : Option Byte := none

/-- The byte at address `a`, if it holds a value. -/
def Memory.read : Memory → Nat → Option Byte
  | [], _ => Memory.unlisted
  | c :: rest, a => if c.1 = a then some c.2 else Memory.read rest a

/-- `M[a] <- v`, keeping the canonical form. -/
def Memory.write : Memory → Nat → Byte → Memory
  | [], a, v => [(a, v)]
  | c :: rest, a, v =>
    if a < c.1 then (a, v) :: c :: rest
    else if a = c.1 then (a, v) :: rest
    else c :: Memory.write rest a v

/-- The `n` addresses of an access at `a`, taken modulo 2^32 (R32). -/
def accessAddrs (a : Word) : Nat → List Nat
  | 0 => []
  | n + 1 => a.toNat :: accessAddrs (a + 1#32) n

/-- The bytes at the listed addresses, if all of them hold a value. -/
def Memory.readAll (m : Memory) : List Nat → Option (List Byte)
  | [] => some []
  | a :: as =>
    match m.read a, Memory.readAll m as with
    | some b, some bs => some (b :: bs)
    | _, _ => none

/-- Bytes written to addresses, pairwise in order. -/
def Memory.writeAll (m : Memory) : List Nat → List Byte → Memory
  | a :: as, b :: bs => Memory.writeAll (m.write a b) as bs
  | _, _ => m

/-- The region holds the address. -/
def regionHas (r : Region) (a : Nat) : Bool := decide (r.base ≤ a) && decide (a < r.base + r.size)

/-- A set of addresses, given as regions, holds the address. -/
def inRegions (rs : List Region) (a : Nat) : Bool := rs.any (fun r => regionHas r a)

/-- An access of `n` bytes at `a` is naturally aligned (R35). -/
def accessAligned (a : Word) (n : Nat) : Bool := a.toNat % n == 0

/-- `MemRead(a, n)` (R6, R32): the alignment, the address map and the contents are checked in the order of R235, then
the bytes are put together big-endian. -/
def memRead (s : State) (a : Word) (n : Nat) : Except Fault Word :=
  if accessAligned a n = false then .error (.misalignedAccess a n)
  else if (accessAddrs a n).all (inRegions s.params.memMap) = false then .error (.accessFault a n)
  else
    match s.mem.readAll (accessAddrs a n) with
    | some bs => .ok (bigEndian bs)
    | none => .error (.uninitialisedRead a n)

/-- `MemWrite(a, n, v)` (R6, R33): the alignment, the address map and `CODE_REGION` are checked in the order of R235;
then the low `8n` bits of `v` are written, big-endian, and nothing else changes. -/
def memWrite (s : State) (a : Word) (n : Nat) (v : Word) : Result :=
  if accessAligned a n = false then .fault (.misalignedAccess a n)
  else if (accessAddrs a n).all (inRegions s.params.memMap) = false then .fault (.accessFault a n)
  else if (accessAddrs a n).any (inRegions s.params.codeRegion) = true then .refused (.codeWriteRefused a n)
  else .next { s with mem := s.mem.writeAll (accessAddrs a n) (toBigEndian n v) }

/-- The instruction fetch: four bytes at `pc`, big-endian (R19, R34, R232). `pc` is a multiple of 4 in every state a
run reaches (R17, R37); at any other `pc` the read's own alignment check stops it (log entry 25). -/
def fetch (s : State) : Except Fault Word := memRead s s.pc 4

/-! ### Control transfer and stopping -/

/-- The low two bits of a target are zero (R21). -/
def targetAligned (target : Word) : Bool := target.extractLsb' 0 2 == 0#2

/-- Ending a step in a named fault (R230). The hardware has no exception mechanism: nothing is saved, no handler is
entered, and there is nothing to return from (R236, R237). -/
def raise (f : Fault) : Result := .fault f

/-- `pc <- target` after the state changes already made in `s`; a misaligned target raises, and those changes are then
lost with the step (R21: "the instruction writes nothing"). -/
def transfer (s : State) (target : Word) : Result :=
  if targetAligned target = true then .next (s.setPc target) else raise (.misalignedTarget target)

/-- The word of instruction `i` as it stands at `pc`; outside a step, where those bytes may hold no value, the word the
encoder gives it. Used only to name the word in a refusal (R231, "info recorded"; log entry 14). -/
def wordAtPc (s : State) (i : Instr) : Word :=
  match fetch s with
  | .ok bits => bits
  | .error _ => encode s.params.opcodeMap i

end Sys2Proof.Machine
end

