-- ==== Sys2Proof/Machine/Flags.lean ====
section
/-! DEFINITION. The hardware has no flags (spec/10_state.md R22): a comparison writes its truth value to a register, and
a condition tests a register against zero. Both are here. -/

namespace Sys2Proof.Machine

/-- What a comparison writes: `CMP_TRUE` if it holds, zero if not (R140, R141). -/
def truth (s : State) (holds : Bool) : Word := if holds then s.params.cmpTrue else 0#32

/-- The condition of MOVZ and JUMPZ, on all 32 bits (R110, R221); MOVNZ and JUMPNZ take its negation (R111, R222). -/
def isZero (v : Word) : Bool := v == 0#32

end Sys2Proof.Machine
end

