-- ==== Sys2Proof/Machine/Operands.lean ====
section
/-! DEFINITION. The operand forms: immediates, the displacement addressing mode, jump targets and shift amounts
(spec/20_memory.md R48; spec/30_encoding.md R70 to R73). -/

namespace Sys2Proof.Machine

/-- `sext_14` (R6, R71). Two's complement, log entry 18. -/
def sext14 (v : BitVec 14) : Word := v.signExtend 32

/-- `sext_19` (R6, R70). -/
def sext19 (v : BitVec 19) : Word := v.signExtend 32

/-- `zext_24` (R6, R72). DESIGN CHOICE of the spec: a byte address, unscaled (D29, log entry 11). -/
def zext24 (v : BitVec 24) : Word := v.setWidth 32

/-- `sext_16` of the low half-word (R6, R173). -/
def sext16 (v : Word) : Word := (v.extractLsb' 0 16).signExtend 32

/-- `sext_8` of the low byte (R6, R175). -/
def sext8 (v : Word) : Word := (v.extractLsb' 0 8).signExtend 32

/-- `zext_16` of the low half-word (R6, R172). -/
def zext16 (v : Word) : Word := (v.extractLsb' 0 16).setWidth 32

/-- `zext_8` of the low byte (R6, R174). -/
def zext8 (v : Word) : Word := (v.extractLsb' 0 8).setWidth 32

/-- The effective address `x[base] + sext_14(SIMM14)` modulo 2^32 (R40, R48, R170, R190; log entry 19). -/
def effAddr (s : State) (base : Reg) (simm : BitVec 14) : Word := s.readReg base + sext14 simm

/-- The number COND_JUMP_BASE (R3, R220). -/
def condJumpBase : CondJumpBase → Word
  | .zero => 0#32
  | .four => 4#32

/-- The target of a taken conditional jump: `A + COND_JUMP_BASE + sext_14(REL14)` modulo 2^32 (R220). -/
def relTarget (s : State) (rel : BitVec 14) : Word := s.pc + condJumpBase s.params.condJumpBase + sext14 rel

/-- The shift amount `b[4:0]` (43_alu.md section 4, R137 to R139). -/
def shiftAmount (b : Word) : Nat := (b.extractLsb' 0 5).toNat

/-- MOVHI's result: `SIMM19[15:0] :: old[15:0]`; SIMM19[18:16] do not enter (R121). -/
def highHalf (simm : BitVec 19) (old : Word) : Word := simm.extractLsb' 0 16 ++ old.extractLsb' 0 16

end Sys2Proof.Machine
end

