-- ==== Sys2Proof/Machine/Alu.lean ====
section
/-! DEFINITION. The fifteen instructions of format F-RRR in spec/43_alu.md. -/

namespace Sys2Proof.Machine

/-- The common rule R130: read both sources, compute, write DST, `pc <- A + 4`. The sources are read before DST is
written (R27, log entry 22). No flag, no memory, no trap. -/
def alu (f : Word → Word → Word) (dst src1 src2 : Reg) (s : State) : Result :=
  .next (s.writeReg dst (f (s.readReg src1) (s.readReg src2))).advance

/-- R131: the sum modulo 2^32 (R148, log entry 20). -/
def execAdd (dst src1 src2 : Reg) (s : State) : Result := alu (fun a b => a + b) dst src1 src2 s

/-- R132: the difference modulo 2^32; SRC1 is the minuend. -/
def execSub (dst src1 src2 : Reg) (s : State) : Result := alu (fun a b => a - b) dst src1 src2 s

/-- R133: the low 32 bits of the product. -/
def execMul (dst src1 src2 : Reg) (s : State) : Result := alu (fun a b => a * b) dst src1 src2 s

/-- R134. -/
def execAnd (dst src1 src2 : Reg) (s : State) : Result := alu (fun a b => a &&& b) dst src1 src2 s

/-- R135 (inclusive or, 90_conflicts.md C6). -/
def execOr (dst src1 src2 : Reg) (s : State) : Result := alu (fun a b => a ||| b) dst src1 src2 s

/-- R136. -/
def execXor (dst src1 src2 : Reg) (s : State) : Result := alu (fun a b => a ^^^ b) dst src1 src2 s

/-- R137: zeros enter at the bottom. -/
def execSll (dst src1 src2 : Reg) (s : State) : Result := alu (fun a b => a <<< shiftAmount b) dst src1 src2 s

/-- R138: zeros enter at the top. -/
def execSrl (dst src1 src2 : Reg) (s : State) : Result := alu (fun a b => a >>> shiftAmount b) dst src1 src2 s

/-- R139: copies of bit 31 enter at the top. -/
def execSra (dst src1 src2 : Reg) (s : State) : Result := alu (fun a b => a.sshiftRight (shiftAmount b)) dst src1 src2 s

/-- R140, R142. -/
def execEq (dst src1 src2 : Reg) (s : State) : Result := alu (fun a b => truth s (a == b)) dst src1 src2 s

/-- R140, R143. -/
def execNeq (dst src1 src2 : Reg) (s : State) : Result := alu (fun a b => truth s (a != b)) dst src1 src2 s

/-- R140, R144: both operands signed (90_conflicts.md C18). -/
def execSlt (dst src1 src2 : Reg) (s : State) : Result := alu (fun a b => truth s (a.slt b)) dst src1 src2 s

/-- R140, R145: both operands unsigned. -/
def execUlt (dst src1 src2 : Reg) (s : State) : Result := alu (fun a b => truth s (a.ult b)) dst src1 src2 s

/-- R140, R146. -/
def execSle (dst src1 src2 : Reg) (s : State) : Result := alu (fun a b => truth s (a.sle b)) dst src1 src2 s

/-- R140, R147. -/
def execUle (dst src1 src2 : Reg) (s : State) : Result := alu (fun a b => truth s (a.ule b)) dst src1 src2 s

end Sys2Proof.Machine
end

