-- ==== Sys2Proof/Machine/AluImm.lean ====
section
/-! DEFINITION. ADDI (spec/44_alu_imm.md). -/

namespace Sys2Proof.Machine

/-- R160: `x[DST] <- (x[SRC] + sext_14(SIMM14)) mod 2^32`. -/
def execAddi (dst src : Reg) (simm : BitVec 14) (s : State) : Result :=
  .next (s.writeReg dst (s.readReg src + sext14 simm)).advance

end Sys2Proof.Machine
end

