-- ==== Sys2Proof/Machine/CondJump.lean ====
section
/-! DEFINITION. JUMPZ and JUMPNZ (spec/49_cond_jump.md). -/

namespace Sys2Proof.Machine

/-- The shared form: to the relative target if the jump is taken (R220), else `pc <- A + 4`. A misaligned target faults
only when the jump is taken. -/
def condJump (taken : Bool) (rel : BitVec 14) (s : State) : Result :=
  if taken then transfer s (relTarget s rel) else .next s.advance

/-- R221. -/
def execJumpz (src : Reg) (rel : BitVec 14) (s : State) : Result := condJump (isZero (s.readReg src)) rel s

/-- R222. -/
def execJumpnz (src : Reg) (rel : BitVec 14) (s : State) : Result := condJump (!isZero (s.readReg src)) rel s

end Sys2Proof.Machine
end

