-- ==== Sys2Proof/Machine/CondMove.lean ====
section
/-! DEFINITION. MOVZ and MOVNZ (spec/41_cond_move.md). -/

namespace Sys2Proof.Machine

/-- The shared form: DST takes SRC2 if the condition holds, else keeps its value; then `pc <- A + 4`. -/
def condMove (take : Bool) (dst src2 : Reg) (s : State) : Result :=
  .next (if take then s.writeReg dst (s.readReg src2) else s).advance

/-- R110. -/
def execMovz (dst src1 src2 : Reg) (s : State) : Result := condMove (isZero (s.readReg src1)) dst src2 s

/-- R111. -/
def execMovnz (dst src1 src2 : Reg) (s : State) : Result := condMove (!isZero (s.readReg src1)) dst src2 s

end Sys2Proof.Machine
end

