-- ==== Sys2Proof/Machine/IndirectJumpCall.lean ====
section
/-! DEFINITION. JUMP and CALL with a register (spec/48_indirect_jump_call.md). -/

namespace Sys2Proof.Machine

/-- R210: all 32 bits of SRC. -/
def execJumpReg (src : Reg) (s : State) : Result := transfer s (s.readReg src)

/-- R211; SRC = 3 is refused, before the target is looked at (R212, R235). -/
def execCallReg (src : Reg) (s : State) : Result :=
  if src = linkReg then .refused (.ambiguousCallR3 (wordAtPc s (.callReg src)))
  else transfer (s.writeReg linkReg (s.pc + 4#32)) (s.readReg src)

end Sys2Proof.Machine
end

