-- ==== Sys2Proof/Machine/JumpCall.lean ====
section
/-! DEFINITION. JUMP and CALL with an absolute address (spec/47_jump_call.md). No delay slot (R203, log entry 16). -/

namespace Sys2Proof.Machine

/-- R200. -/
def execJumpAbs (absAddr : BitVec 24) (s : State) : Result := transfer s (zext24 absAddr)

/-- R201: `r3` takes the address of the instruction after the call. -/
def execCallAbs (absAddr : BitVec 24) (s : State) : Result :=
  transfer (s.writeReg linkReg (s.pc + 4#32)) (zext24 absAddr)

end Sys2Proof.Machine
end

