-- ==== Sys2Proof/Machine/Load.lean ====
section
/-! DEFINITION. The five loads (spec/45_load.md). -/

namespace Sys2Proof.Machine

/-- The common rule R176: the effective address (R170), `MemRead` with its faults, the extension, the write of DST,
`pc <- A + 4`. On a fault DST is not written. -/
def load (n : Nat) (extend : Word → Word) (dst src : Reg) (simm : BitVec 14) (s : State) : Result :=
  match memRead s (effAddr s src simm) n with
  | .ok v => .next (s.writeReg dst (extend v)).advance
  | .error f => raise f

/-- R171: a word. -/
def execLd (dst src : Reg) (simm : BitVec 14) (s : State) : Result := load 4 (fun v => v) dst src simm s

/-- R172: an unsigned half-word. -/
def execLdhu (dst src : Reg) (simm : BitVec 14) (s : State) : Result := load 2 zext16 dst src simm s

/-- R173: a signed half-word. -/
def execLdhs (dst src : Reg) (simm : BitVec 14) (s : State) : Result := load 2 sext16 dst src simm s

/-- R174: an unsigned byte. -/
def execLdbu (dst src : Reg) (simm : BitVec 14) (s : State) : Result := load 1 zext8 dst src simm s

/-- R175: a signed byte. -/
def execLdbs (dst src : Reg) (simm : BitVec 14) (s : State) : Result := load 1 sext8 dst src simm s

end Sys2Proof.Machine
end

