-- ==== Sys2Proof/Machine/MoveImm.lean ====
section
/-! DEFINITION. MOVSI and MOVHI (spec/42_move_imm.md). -/

namespace Sys2Proof.Machine

/-- R120: the whole register is written; its old value is not read. -/
def execMovsi (dst : Reg) (simm : BitVec 19) (s : State) : Result := .next (s.writeReg dst (sext19 simm)).advance

/-- R121: the upper half is replaced, the lower half kept. -/
def execMovhi (dst : Reg) (simm : BitVec 19) (s : State) : Result :=
  .next (s.writeReg dst (highHalf simm (s.readReg dst))).advance

end Sys2Proof.Machine
end

