-- ==== Sys2Proof/Machine/Special.lean ====
section
/-! DEFINITION. NOP and HALT (spec/40_special.md). -/

namespace Sys2Proof.Machine

/-- R100: nothing but `pc <- A + 4`. -/
def execNop (s : State) : Result := .next s.advance

/-- R101: `halted <- true`. The stored `pc` is `A + 4`, as R28 asks of a model that must store some value; it is not
observable (log entry 15). -/
def execHalt (s : State) : Result := .next { s.advance with halted := true }

end Sys2Proof.Machine
end

