-- ==== Sys2Proof/Machine/Store.lean ====
section
/-! DEFINITION. The three stores (spec/46_store.md). -/

namespace Sys2Proof.Machine

/-- The common rule R194: the effective address (R190), `MemWrite` of the low `8n` bits of SRC2 with its faults and its
refusal, `pc <- A + 4`. No register is written. -/
def store (n : Nat) (src2 src1 : Reg) (simm : BitVec 14) (s : State) : Result :=
  match memWrite s (effAddr s src1 simm) n (s.readReg src2) with
  | .next t => .next t.advance
  | .fault f => raise f
  | .refused r => .refused r

/-- R191: a word. -/
def execSt (src2 src1 : Reg) (simm : BitVec 14) (s : State) : Result := store 4 src2 src1 simm s

/-- R193: a half-word. -/
def execSth (src2 src1 : Reg) (simm : BitVec 14) (s : State) : Result := store 2 src2 src1 simm s

/-- R192: a byte. -/
def execStb (src2 src1 : Reg) (simm : BitVec 14) (s : State) : Result := store 1 src2 src1 simm s

end Sys2Proof.Machine
end

