-- ==== Sys2Proof/Machine/Dispatch.lean ====
section
/-! DEFINITION. One arm per instruction of spec/opcode_table.json, in the table's order. -/

namespace Sys2Proof.Machine

def exec (i : Instr) (s : State) : Host.Outcome State Fault Refusal :=
  match i with
  | .nop => Sys2Proof.Machine.execNop s
  | .halt => Sys2Proof.Machine.execHalt s
  | .movsi dst simm => Sys2Proof.Machine.execMovsi dst simm s
  | .movhi dst simm => Sys2Proof.Machine.execMovhi dst simm s
  | .add dst src1 src2 => Sys2Proof.Machine.execAdd dst src1 src2 s
  | .sub dst src1 src2 => Sys2Proof.Machine.execSub dst src1 src2 s
  | .mul dst src1 src2 => Sys2Proof.Machine.execMul dst src1 src2 s
  | .and dst src1 src2 => Sys2Proof.Machine.execAnd dst src1 src2 s
  | .or dst src1 src2 => Sys2Proof.Machine.execOr dst src1 src2 s
  | .xor dst src1 src2 => Sys2Proof.Machine.execXor dst src1 src2 s
  | .sll dst src1 src2 => Sys2Proof.Machine.execSll dst src1 src2 s
  | .srl dst src1 src2 => Sys2Proof.Machine.execSrl dst src1 src2 s
  | .sra dst src1 src2 => Sys2Proof.Machine.execSra dst src1 src2 s
  | .ld dst src simm => Sys2Proof.Machine.execLd dst src simm s
  | .ldhs dst src simm => Sys2Proof.Machine.execLdhs dst src simm s
  | .ldhu dst src simm => Sys2Proof.Machine.execLdhu dst src simm s
  | .ldbs dst src simm => Sys2Proof.Machine.execLdbs dst src simm s
  | .ldbu dst src simm => Sys2Proof.Machine.execLdbu dst src simm s
  | .st src2 src1 simm => Sys2Proof.Machine.execSt src2 src1 simm s
  | .sth src2 src1 simm => Sys2Proof.Machine.execSth src2 src1 simm s
  | .stb src2 src1 simm => Sys2Proof.Machine.execStb src2 src1 simm s
  | .jumpAbs absAddr => Sys2Proof.Machine.execJumpAbs absAddr s
  | .callAbs absAddr => Sys2Proof.Machine.execCallAbs absAddr s
  | .jumpReg src => Sys2Proof.Machine.execJumpReg src s
  | .callReg src => Sys2Proof.Machine.execCallReg src s
  | .eq dst src1 src2 => Sys2Proof.Machine.execEq dst src1 src2 s
  | .neq dst src1 src2 => Sys2Proof.Machine.execNeq dst src1 src2 s
  | .slt dst src1 src2 => Sys2Proof.Machine.execSlt dst src1 src2 s
  | .ult dst src1 src2 => Sys2Proof.Machine.execUlt dst src1 src2 s
  | .sle dst src1 src2 => Sys2Proof.Machine.execSle dst src1 src2 s
  | .ule dst src1 src2 => Sys2Proof.Machine.execUle dst src1 src2 s
  | .movz dst src1 src2 => Sys2Proof.Machine.execMovz dst src1 src2 s
  | .movnz dst src1 src2 => Sys2Proof.Machine.execMovnz dst src1 src2 s
  | .jumpz src relAddr => Sys2Proof.Machine.execJumpz src relAddr s
  | .jumpnz src relAddr => Sys2Proof.Machine.execJumpnz src relAddr s
  | .addi dst src simm => Sys2Proof.Machine.execAddi dst src simm s

end Sys2Proof.Machine
end

