-- ==== Sys2Proof/Machine/Step.lean ====
section
/-! DEFINITION. One step of the processor (spec/10_state.md R19). -/

namespace Sys2Proof.Machine

/-- A state with `halted` true has no step. Otherwise: fetch at `pc`, decode, execute; the meanings update `pc`
themselves (R18, R19). Faults in the order of R235. -/
def step (s : State) : Host.Outcome State Fault Refusal :=
  if s.halted then raise .halted
  else
    match fetch s with
    | .error f => raise f
    | .ok bits =>
      match decodeWord s.params.opcodeMap s.params.strictUnused bits with
      | .error _ => raise (.illegalInstruction bits s.pc)
      | .ok i => exec i s

/-- `s` with the table's word stored, big-endian, at `pc`, where the next step fetches (R34). Nothing else changes:
`CODE_REGION` stays the one given in `s`, which need not be the default that a launch computes from its program
(DESIGN CHOICE, log entry 9). -/
def State.withFetchWord (s : State) (nbits w : Nat) : State :=
  { s with mem := s.mem.writeAll (accessAddrs s.pc 4) (toBigEndian 4 (tableWord nbits w)) }

end Sys2Proof.Machine
end

