-- ==== Sys2Proof/Machine/Assembly.lean ====
section
/-! DEFINITION. The assembly syntax (spec/30_encoding.md R82 to R89, R91; spec/49_cond_jump.md R223): from text to tokens
to statements to words. The step does not use this file. What the manual leaves open of the assembler (R84: the form of
a negative number, a number in place of a label, a value outside its field) is a DESIGN CHOICE of the model, log entry
27: such text is read as the spec's own examples write it, or refused by `none`. -/

namespace Sys2Proof.Machine

/-! ### Names -/

/-- The mnemonics (R82); JUMP and CALL have two operations each, told apart by their operands (R75). Only the lower case
of the examples is taken: whether mnemonics are case sensitive is not stated (91_not_in_source.md N22; DESIGN CHOICE, log
entry 27). -/
def mnemonicOf : Op → List Char
  | .nop => "nop".toList
  | .halt => "halt".toList
  | .movsi => "movsi".toList
  | .movhi => "movhi".toList
  | .add => "add".toList
  | .sub => "sub".toList
  | .mul => "mul".toList
  | .and => "and".toList
  | .or => "or".toList
  | .xor => "xor".toList
  | .sll => "sll".toList
  | .srl => "srl".toList
  | .sra => "sra".toList
  | .ld => "ld".toList
  | .ldhs => "ldhs".toList
  | .ldhu => "ldhu".toList
  | .ldbs => "ldbs".toList
  | .ldbu => "ldbu".toList
  | .st => "st".toList
  | .sth => "sth".toList
  | .stb => "stb".toList
  | .jumpAbs | .jumpReg => "jump".toList
  | .callAbs | .callReg => "call".toList
  | .eq => "eq".toList
  | .neq => "neq".toList
  | .slt => "slt".toList
  | .ult => "ult".toList
  | .sle => "sle".toList
  | .ule => "ule".toList
  | .movz => "movz".toList
  | .movnz => "movnz".toList
  | .jumpz => "jumpz".toList
  | .jumpnz => "jumpnz".toList
  | .addi => "addi".toList

/-- The value of a digit in a base, if it is one. -/
def digitValue (base : Nat) (c : Char) : Option Nat :=
  let v :=
    if c.isDigit then c.toNat - 48
    else if 97 ≤ c.toNat && c.toNat ≤ 102 then c.toNat - 87
    else if 65 ≤ c.toNat && c.toNat ≤ 70 then c.toNat - 55
    else 99
  if v < base then some v else none

/-- The number written by digits of a base, from the left. -/
def digitsValue (base : Nat) (acc : Nat) : List Char → Option Nat
  | [] => some acc
  | c :: cs =>
    match digitValue base c with
    | some v => digitsValue base (acc * base + v) cs
    | none => none

/-- A number: decimal without prefix, hexadecimal with `0x`, binary with `0b` (R84, R87). Hexadecimal digits in either
case, prefixes in lower case only (DESIGN CHOICE, log entry 27). -/
def numberValue : List Char → Option Nat
  | '0' :: 'x' :: c :: cs => digitsValue 16 0 (c :: cs)
  | '0' :: 'b' :: c :: cs => digitsValue 2 0 (c :: cs)
  | c :: cs => digitsValue 10 0 (c :: cs)
  | [] => none

/-- A register name, `r<i>` or `R<i>`, `i` decimal from 0 to 31 without leading zeros (R83; 92_eei_decisions.md D26). -/
def regOfName : List Char → Option Reg
  | p :: c :: cs =>
    if (p = 'r' ∨ p = 'R') ∧ c.isDigit = true ∧ (c ≠ '0' ∨ cs = []) then
      match digitsValue 10 0 (c :: cs) with
      | some n => if h : n < 32 then some ⟨n, h⟩ else none
      | none => none
    else none
  | _ => none

/-- The decimal digits of a register number. -/
def regName (r : Reg) : List Char :=
  'r' :: (if r.val < 10 then [Char.ofNat (48 + r.val)]
    else [Char.ofNat (48 + r.val / 10), Char.ofNat (48 + r.val % 10)])

/-! ### Tokens -/

/-- A token: a name (mnemonic, register, label, directive), a number, a sign, the end of a line. -/
inductive Token where
  | name (cs : List Char)
  | num (n : Nat)
  | sym (c : Char)
  | newline
  deriving DecidableEq, Repr

/-- Where the comment remover stands. -/
inductive CommentMode where
  | code | line | block
  deriving DecidableEq, Repr

/-- `// line comment` and `/* block comment */` removed (R85). The manual does not say whether block comments nest
(91_not_in_source.md N22): here they do not, the first `*/` ends the block. A space stands in place of each block, a
comment sign inside a comment of the other kind is part of its text, and a block that is not closed runs to the end of
the text (all DESIGN CHOICE, log entry 27). -/
def stripComments : CommentMode → List Char → List Char
  | _, [] => []
  | .code, '/' :: '/' :: cs => stripComments .line cs
  | .code, '/' :: '*' :: cs => ' ' :: stripComments .block cs
  | .code, c :: cs => c :: stripComments .code cs
  | .line, '\n' :: cs => '\n' :: stripComments .code cs
  | .line, _ :: cs => stripComments .line cs
  | .block, '*' :: '/' :: cs => stripComments .code cs
  | .block, _ :: cs => stripComments .block cs

/-- The token of a run of letters, digits, `_` and `.`; a run that starts with a digit is a number or nothing. Which
characters a name may have is not stated (DESIGN CHOICE, log entry 27). -/
def wordToken : List Char → Option (List Token)
  | [] => some []
  | c :: cs =>
    if c.isDigit then
      match numberValue (c :: cs) with
      | some n => some [.num n]
      | none => none
    else some [.name (c :: cs)]

/-- The tokens of text without comments; `acc` is the run read so far. -/
def tokens (acc : List Char) : List Char → Option (List Token)
  | [] => wordToken acc
  | c :: cs =>
    if c.isAlphanum || c = '_' || c = '.' then tokens (acc ++ [c]) cs
    else
      match wordToken acc, tokens [] cs with
      | some w, some ts =>
        some (w ++ (if c = '\n' then [.newline] else if c.isWhitespace then [] else [.sym c]) ++ ts)
      | _, _ => none

/-! ### Operands -/

/-- The names `.equiv` has defined so far, newest first (R87; case-sensitive). A name defined twice takes its newest
value (DESIGN CHOICE, log entry 27). -/
abbrev Defines := List (List Char × Int)

/-- A number, a negative number or a defined name. The manual does not say where a name that `.equiv` defined may stand:
here it is as the operand of MOVSI, MOVHI and ADDI and as the value of a later `.equiv`, and not after a minus sign
(DESIGN CHOICE, log entry 27). -/
def numberOperand (ds : Defines) : List Token → Option (Int × List Token)
  | .num n :: ts => some (n, ts)
  | .sym '-' :: .num n :: ts => some (-n, ts)
  | .name x :: ts => (ds.lookup x).map (fun n => (n, ts))
  | _ => none

/-- `+ SIMM` or `- SIMM` inside a memory operand (R82), and a relative address written as a number (R84). The negative
forms, and that a defined name may stand after the plus sign and not after the minus sign, are DESIGN CHOICE (log entry
27). -/
def displacement (ds : Defines) : List Token → Option (Int × List Token)
  | .sym '+' :: ts => numberOperand ds ts
  | .sym '-' :: .num n :: ts => some (-n, ts)
  | _ => none

/-- A value in the range of a signed field of `w` bits, as that field. -/
def signedField (w : Nat) (n : Int) : Option (BitVec w) :=
  if -(2 ^ (w - 1) : Nat) ≤ n ∧ n < (2 ^ (w - 1) : Nat) then some (BitVec.ofInt w n) else none

/-- A value in the range of an unsigned field of `w` bits, as that field. -/
def unsignedField (w : Nat) (n : Int) : Option (BitVec w) :=
  if 0 ≤ n ∧ n < (2 ^ w : Nat) then some (BitVec.ofInt w n) else none

/-- MOVHI's operand: any value of its 19-bit field, written signed or unsigned (not in the manual, 91_not_in_source.md
N24; DESIGN CHOICE, log entry 27). -/
def movhiField (n : Int) : Option (BitVec 19) :=
  if -262144 ≤ n ∧ n < 524288 then some (BitVec.ofInt 19 n) else none

/-- The assembler's side of a relative jump (R223): the field `(label - A - COND_JUMP_BASE)[13:0]`, when the difference
is in reach. -/
def relField (base : CondJumpBase) (label a : Word) : Option (BitVec 14) :=
  let d := label - a - condJumpBase base
  if (d.setWidth 14).signExtend 32 = d then some (d.setWidth 14) else none

/-! ### Statements -/

/-- An instruction whose label operand, if any, is not yet an address. -/
inductive AsmInstr where
  | ready (i : Instr)
  | jumpTo (label : List Char)
  | callTo (label : List Char)
  | branchTo (ifZero : Bool) (src : Reg) (label : List Char)
  deriving DecidableEq, Repr

/-- A statement of the assembly language (R82, R86, R87, R88). -/
inductive Stmt where
  | label (name : List Char)
  | equiv (name : List Char) (value : Int)
  | text
  | instr (i : AsmInstr)
  deriving DecidableEq, Repr

/-- The instruction of format F-RRR. -/
def rrrInstr (op : Op) (d a b : Reg) : Option Instr :=
  match op with
  | .add => some (.add d a b)
  | .sub => some (.sub d a b)
  | .mul => some (.mul d a b)
  | .and => some (.and d a b)
  | .or => some (.or d a b)
  | .xor => some (.xor d a b)
  | .sll => some (.sll d a b)
  | .srl => some (.srl d a b)
  | .sra => some (.sra d a b)
  | .eq => some (.eq d a b)
  | .neq => some (.neq d a b)
  | .slt => some (.slt d a b)
  | .ult => some (.ult d a b)
  | .sle => some (.sle d a b)
  | .ule => some (.ule d a b)
  | .movz => some (.movz d a b)
  | .movnz => some (.movnz d a b)
  | _ => none

/-- The load of an operation. -/
def loadInstr (op : Op) (d a : Reg) (i : BitVec 14) : Option Instr :=
  match op with
  | .ld => some (.ld d a i)
  | .ldhs => some (.ldhs d a i)
  | .ldhu => some (.ldhu d a i)
  | .ldbs => some (.ldbs d a i)
  | .ldbu => some (.ldbu d a i)
  | _ => none

/-- The store of an operation. -/
def storeInstr (op : Op) (v a : Reg) (i : BitVec 14) : Option Instr :=
  match op with
  | .st => some (.st v a i)
  | .sth => some (.sth v a i)
  | .stb => some (.stb v a i)
  | _ => none

/-- The operands `SRC1, SRC2` of an F-RRR operation (R63, R75). -/
def parseRRR (d : Reg) (op : Op) : List Token → Option Instr
  | [.name x, .sym ',', .name y] =>
    match regOfName x, regOfName y with
    | some a, some b => rrrInstr op d a b
    | _, _ => none
  | _ => none

/-- The operand `SIMM` of MOVSI or MOVHI (R64, R75). -/
def parseMI (ds : Defines) (d : Reg) (op : Op) (ts : List Token) : Option Instr :=
  match numberOperand ds ts with
  | some (n, []) =>
    match op with
    | .movsi => (signedField 19 n).map (.movsi d)
    | .movhi => (movhiField n).map (.movhi d)
    | _ => none
  | _ => none

/-- The operands `SRC, SIMM` of ADDI (R75). -/
def parseAddi (ds : Defines) (d : Reg) : List Token → Option Instr
  | .name x :: .sym ',' :: ts =>
    match regOfName x, numberOperand ds ts with
    | some a, some (n, []) => (signedField 14 n).map (.addi d a)
    | _, _ => none
  | _ => none

/-- The operand `[SRC + SIMM]` of a load (R75, R82). -/
def parseLoad (ds : Defines) (d : Reg) (op : Op) : List Token → Option Instr
  | .sym '[' :: .name x :: ts =>
    match regOfName x, displacement ds ts with
    | some a, some (n, [.sym ']']) => (signedField 14 n).bind (loadInstr op d a)
    | _, _ => none
  | _ => none

/-- The right side of `DST = mnemonic operands`, for one operation (the "syntax" column of R75). -/
def parseDst (ds : Defines) (d : Reg) (op : Op) (ts : List Token) : Option Instr :=
  match formatOf op with
  | .rrr => parseRRR d op ts
  | .mi => parseMI ds d op ts
  | .ri => if op = .addi then parseAddi ds d ts else parseLoad ds d op ts
  | .spc | .st | .j | .jr | .cj => none

/-- `mnemonic operands` of an instruction without destination, for one operation (R75, R84). Whether ABS_ADDR and
REL_ADDR may be written as numbers is not in the manual (R84): here ABS_ADDR may be a number without sign but no name
that `.equiv` defined, REL_ADDR a number or such a name after its sign as in `displacement`; after `$` stands a label and
no such name (all DESIGN CHOICE, log entry 27). -/
def parseNoDst (ds : Defines) (op : Op) (ts : List Token) : Option AsmInstr :=
  match op, ts with
  | .nop, [] => some (.ready .nop)
  | .halt, [] => some (.ready .halt)
  | .st, .name x :: .sym ',' :: .sym '[' :: .name y :: ts
  | .sth, .name x :: .sym ',' :: .sym '[' :: .name y :: ts
  | .stb, .name x :: .sym ',' :: .sym '[' :: .name y :: ts =>
    match regOfName x, regOfName y, displacement ds ts with
    | some v, some a, some (n, [.sym ']']) => ((signedField 14 n).bind (storeInstr op v a)).map .ready
    | _, _, _ => none
  | .jumpAbs, [.sym '$', .name l] => some (.jumpTo l)
  | .jumpAbs, [.num n] => (unsignedField 24 n).map (fun t => .ready (.jumpAbs t))
  | .callAbs, [.sym '$', .name l] => some (.callTo l)
  | .callAbs, [.num n] => (unsignedField 24 n).map (fun t => .ready (.callAbs t))
  | .jumpReg, [.name x] => (regOfName x).map (fun a => .ready (.jumpReg a))
  | .callReg, [.name x] => (regOfName x).map (fun a => .ready (.callReg a))
  | .jumpz, [.name x, .sym ',', .sym '$', .name l] => (regOfName x).map (fun a => .branchTo true a l)
  | .jumpnz, [.name x, .sym ',', .sym '$', .name l] => (regOfName x).map (fun a => .branchTo false a l)
  | .jumpz, .name x :: .sym ',' :: ts =>
    match regOfName x, displacement ds ts with
    | some a, some (n, []) => (signedField 14 n).map (fun r => .ready (.jumpz a r))
    | _, _ => none
  | .jumpnz, .name x :: .sym ',' :: ts =>
    match regOfName x, displacement ds ts with
    | some a, some (n, []) => (signedField 14 n).map (fun r => .ready (.jumpnz a r))
    | _, _ => none
  | _, _ => none

/-- One instruction statement: `DST = mnemonic operands` or `mnemonic operands` (R82). Mnemonics in lower case only:
their case sensitivity is not stated (91_not_in_source.md N22; DESIGN CHOICE, log entry 27). -/
def parseInstr (ds : Defines) (ts : List Token) : Option AsmInstr :=
  match ts with
  | .name x :: .sym '=' :: .name m :: rest =>
    match regOfName x with
    | some d => ((allOps.filter (fun op => mnemonicOf op == m)).findSome? (fun op => parseDst ds d op rest)).map .ready
    | none => none
  | .name m :: rest => (allOps.filter (fun op => mnemonicOf op == m)).findSome? (fun op => parseNoDst ds op rest)
  | _ => none

/-- One line: labels, then at most one directive or instruction (the shape of a line is DESIGN CHOICE, log entry 27).
Directive names are case-insensitive (R88). -/
def parseLine (ds : Defines) : List Token → Option (List Stmt)
  | [] => some []
  | .name l :: .sym ':' :: ts => (parseLine ds ts).map (.label l :: ·)
  | .name x :: ts =>
    if x.map Char.toLower = ".text".toList then if ts = [] then some [.text] else none
    else if x.map Char.toLower = ".equiv".toList then
      match ts with
      | .name n :: .sym ',' :: ts =>
        match numberOperand ds ts with
        | some (v, []) => some [.equiv n v]
        | _ => none
      | _ => none
    else (parseInstr ds (.name x :: ts)).map (fun i => [.instr i])
  | _ => none

/-- The definitions a list of statements adds. -/
def definesOf (ds : Defines) : List Stmt → Defines
  | .equiv n v :: ss => definesOf ((n, v) :: ds) ss
  | _ :: ss => definesOf ds ss
  | [] => ds

/-- The statements of a program; `line` is the line read so far. -/
def parseProgram (ds : Defines) (line : List Token) : List Token → Option (List Stmt)
  | [] => parseLine ds line
  | .newline :: ts =>
    match parseLine ds line with
    | some ss => (parseProgram (definesOf ds ss) [] ts).map (ss ++ ·)
    | none => none
  | t :: ts => parseProgram ds (line ++ [t]) ts

/-! ### Words -/

/-- The address of each label when the first instruction is at `a` (R86: "at the current address"). Label names are case
sensitive, and of a label defined twice the first definition counts (DESIGN CHOICE, log entry 27). -/
def labelsOf (a : Word) : List Stmt → List (List Char × Word)
  | .label l :: ss => (l, a) :: labelsOf a ss
  | .instr _ :: ss => labelsOf (a + 4#32) ss
  | _ :: ss => labelsOf a ss
  | [] => []

/-- The instruction at address `a`, its label looked up (R72, R84, R223). -/
def resolve (base : CondJumpBase) (labels : List (List Char × Word)) (a : Word) : AsmInstr → Option Instr
  | .ready i => some i
  | .jumpTo l => (labels.lookup l).bind fun t => (unsignedField 24 t.toNat).map .jumpAbs
  | .callTo l => (labels.lookup l).bind fun t => (unsignedField 24 t.toNat).map .callAbs
  | .branchTo true r l => (labels.lookup l).bind fun t => (relField base t a).map (.jumpz r)
  | .branchTo false r l => (labels.lookup l).bind fun t => (relField base t a).map (.jumpnz r)

/-- The instructions of a program with their addresses. -/
def layOut (base : CondJumpBase) (labels : List (List Char × Word)) (a : Word) :
    List Stmt → Option (List (Word × Instr))
  | .instr i :: ss =>
    match resolve base labels a i, layOut base labels (a + 4#32) ss with
    | some i, some rest => some ((a, i) :: rest)
    | _, _ => none
  | _ :: ss => layOut base labels a ss
  | [] => some []

/-- The assembler: text to addressed words, the first at `org`, or `none` where the text is not of this language. -/
def assemble (m : OpcodeMap) (base : CondJumpBase) (org : Word) (src : List Char) : Option (List (Word × Word)) :=
  match tokens [] (stripComments .code src) with
  | none => none
  | some ts =>
    match parseProgram [] [] ts with
    | none => none
    | some ss => (layOut base (labelsOf org ss) org ss).map (·.map fun p => (p.1, encode m p.2))

/-! ### From instructions to tokens -/

/-- A number as tokens. -/
def intTokens (n : Int) : List Token := if 0 ≤ n then [.num n.toNat] else [.sym '-', .num (-n).toNat]

/-- A displacement as tokens. -/
def dispTokens (n : Int) : List Token := if 0 ≤ n then [.sym '+', .num n.toNat] else [.sym '-', .num (-n).toNat]

/-- A register as a token. -/
def regToken (r : Reg) : Token := .name (regName r)

/-- `DST = mnemonic SRC1, SRC2`. -/
def rrrTokens (op : Op) (d a b : Reg) : List Token :=
  [regToken d, .sym '=', .name (mnemonicOf op), regToken a, .sym ',', regToken b]

/-- `DST = mnemonic [SRC + SIMM]`. -/
def loadTokens (op : Op) (d a : Reg) (i : BitVec 14) : List Token :=
  [regToken d, .sym '=', .name (mnemonicOf op), .sym '[', regToken a] ++ dispTokens i.toInt ++ [.sym ']']

/-- `mnemonic SRC2, [SRC1 + SIMM]`. -/
def storeTokens (op : Op) (v a : Reg) (i : BitVec 14) : List Token :=
  [.name (mnemonicOf op), regToken v, .sym ',', .sym '[', regToken a] ++ dispTokens i.toInt ++ [.sym ']']

/-- The statement of an instruction as tokens (R75 "syntax", R82): MOVHI's operand is written unsigned, a relative
address as its signed field (DESIGN CHOICE, log entry 27). -/
def instrTokens : Instr → List Token
  | .nop => [.name (mnemonicOf .nop)]
  | .halt => [.name (mnemonicOf .halt)]
  | .movsi d i => [regToken d, .sym '=', .name (mnemonicOf .movsi)] ++ intTokens i.toInt
  | .movhi d i => [regToken d, .sym '=', .name (mnemonicOf .movhi), .num i.toNat]
  | .add d a b => rrrTokens .add d a b
  | .sub d a b => rrrTokens .sub d a b
  | .mul d a b => rrrTokens .mul d a b
  | .and d a b => rrrTokens .and d a b
  | .or d a b => rrrTokens .or d a b
  | .xor d a b => rrrTokens .xor d a b
  | .sll d a b => rrrTokens .sll d a b
  | .srl d a b => rrrTokens .srl d a b
  | .sra d a b => rrrTokens .sra d a b
  | .eq d a b => rrrTokens .eq d a b
  | .neq d a b => rrrTokens .neq d a b
  | .slt d a b => rrrTokens .slt d a b
  | .ult d a b => rrrTokens .ult d a b
  | .sle d a b => rrrTokens .sle d a b
  | .ule d a b => rrrTokens .ule d a b
  | .movz d a b => rrrTokens .movz d a b
  | .movnz d a b => rrrTokens .movnz d a b
  | .ld d a i => loadTokens .ld d a i
  | .ldhs d a i => loadTokens .ldhs d a i
  | .ldhu d a i => loadTokens .ldhu d a i
  | .ldbs d a i => loadTokens .ldbs d a i
  | .ldbu d a i => loadTokens .ldbu d a i
  | .st v a i => storeTokens .st v a i
  | .sth v a i => storeTokens .sth v a i
  | .stb v a i => storeTokens .stb v a i
  | .jumpAbs t => [.name (mnemonicOf .jumpAbs), .num t.toNat]
  | .callAbs t => [.name (mnemonicOf .callAbs), .num t.toNat]
  | .jumpReg a => [.name (mnemonicOf .jumpReg), regToken a]
  | .callReg a => [.name (mnemonicOf .callReg), regToken a]
  | .jumpz a r => [.name (mnemonicOf .jumpz), regToken a, .sym ','] ++ dispTokens r.toInt
  | .jumpnz a r => [.name (mnemonicOf .jumpnz), regToken a, .sym ','] ++ dispTokens r.toInt
  | .addi d a i => [regToken d, .sym '=', .name (mnemonicOf .addi), regToken a, .sym ','] ++ intTokens i.toInt

/-! ### Inline assembly in C (R89: about the compiler, not the processor) -/

/-- Where an operand of extended inline assembly may live: `r` or `m`; an input may also be `i` or a constant. -/
inductive InlineConstraint where
  | register | memory | immediate
  | constant (text : List Char)
  deriving DecidableEq, Repr

/-- An operand of extended inline assembly: `[SymbolicName] "constraint" (variable or expression)`, where the symbolic
name may be left out, as in the manual's Ex. 6; `readWrite` is the `+` of an output. -/
structure InlineOperand where
  symbolicName : Option (List Char)
  readWrite : Bool
  place : InlineConstraint
  expr : List Char
  deriving DecidableEq, Repr

/-- The two forms of R89. -/
inductive InlineAsm where
  | basic (saysVolatile : Bool) (code : List Char)
  | extended (saysVolatile : Bool) (code : List Char) (outputs inputs : List InlineOperand) (clobbers : List (List Char))
  deriving DecidableEq, Repr

/-- "all basic inline assembly are `volatile` by default", so that the word has no effect there (R89). Of the extended
form R89 shows the word and says nothing of its effect (91_not_in_source.md N15): here it is volatile exactly when the
word is written (DESIGN CHOICE, log entry 31). -/
def inlineIsVolatile : InlineAsm → Bool
  | .basic _ _ => true
  | .extended v _ _ _ _ => v

end Sys2Proof.Machine
end

