-- ==== Sys2Proof/Machine/Launch.lean ====
section
/-! DEFINITION. The launch: the eight parameters of spec/00_scope.md R3 with their defaults, and the state they make
(spec/70_reset_and_hazards.md R260, R261). -/

namespace Sys2Proof.Machine

/-- `MEM_INIT`, "program and initialised data" (R50, R246): the instruction words at their addresses, and the bytes that
hold no instruction. -/
structure MemInit where
  program : List (Word × Word) := []
  data : List Host.Cell := []
  deriving DecidableEq, Repr

/-- Words stored at their addresses, big-endian (R34). -/
def placeWords (m : Memory) : List (Word × Word) → Memory
  | [] => m
  | (a, w) :: rest => placeWords (m.writeAll (accessAddrs a 4) (toBigEndian 4 w)) rest

/-- Bytes stored at their addresses. -/
def placeBytes (m : Memory) : List Host.Cell → Memory
  | [] => m
  | (a, b) :: rest => placeBytes (m.write a b) rest

/-- The map from address to byte that `MEM_INIT` is (R50). It is a map, so no address is listed twice; where one is, the
program's byte counts (DESIGN CHOICE, log entry 8). -/
def imageOf (i : MemInit) : Memory := placeWords (placeBytes [] i.data) i.program

/-- The addresses of `MEM_INIT` that hold instructions: the four bytes of each word of the program (R3, R46, R60). -/
def codeRegionOf (i : MemInit) : List Region := i.program.map fun p => ⟨p.1.toNat, 4⟩

/-- The parameters of R3, one field each, with its default there. The default of `CODE_REGION` depends on `MEM_INIT`. -/
structure LaunchParams where
  opcodeMap : OpcodeMap := Config.params.opcodeMap
  strictUnused : Bool := Config.params.strictUnused
  condJumpBase : CondJumpBase := Config.params.condJumpBase
  cmpTrue : Word := Config.params.cmpTrue
  resetPc : Word := Config.resetPc
  memMap : List Region := Config.params.memMap
  memInit : MemInit := {}
  codeRegion : List Region := codeRegionOf memInit
  deriving DecidableEq, Repr

/-- The parameters that a step reads (log entry 1). -/
def stepParams (l : LaunchParams) : Params where
  opcodeMap := l.opcodeMap
  strictUnused := l.strictUnused
  condJumpBase := l.condJumpBase
  cmpTrue := l.cmpTrue
  memMap := l.memMap
  codeRegion := l.codeRegion

/-- The launch state (R260, R261): all registers zero (R15), `pc` at `RESET_PC` (R29), memory the image `MEM_INIT`
(R50), not halted (R25). -/
def State.launch (l : LaunchParams) : State where
  regs := Vector.replicate 32 0#32
  pc := l.resetPc
  mem := imageOf l.memInit
  halted := false
  params := stepParams l

/-- What R3 asks of the values: `CMP_TRUE` is not zero, `RESET_PC` is a multiple of 4, and `MEM_INIT` lists addresses at
which memory exists, its instructions at multiples of 4 (R17, R41, R50). -/
abbrev LaunchWf (l : LaunchParams) : Prop :=
  l.cmpTrue ≠ 0#32 ∧ l.resetPc.toNat % 4 = 0 ∧
  (∀ p ∈ l.memInit.program, p.1.toNat % 4 = 0 ∧
    (accessAddrs p.1 4).all (inRegions l.memMap) = true) ∧
  ∀ c ∈ l.memInit.data, c.1 < 4294967296 ∧ inRegions l.memMap c.1 = true

end Sys2Proof.Machine
end

