-- ==== Sys2Proof/Machine/Tables.lean ====
section
/-! DEFINITION. The spec's tables about instructions and registers that the step does not read: what each instruction
reads and writes, its memory access, its Latency, the registers' roles and the C data layout. -/

namespace Sys2Proof.Machine

/-- The registers an instruction reads (R14); MOVHI reads DST. -/
def sources : Instr → List Reg
  | .nop | .halt | .movsi .. | .jumpAbs .. | .callAbs .. => []
  | .movhi d _ => [d]
  | .add _ a b | .sub _ a b | .mul _ a b | .and _ a b | .or _ a b | .xor _ a b => [a, b]
  | .sll _ a b | .srl _ a b | .sra _ a b => [a, b]
  | .eq _ a b | .neq _ a b | .slt _ a b | .ult _ a b | .sle _ a b | .ule _ a b => [a, b]
  | .movz _ a b | .movnz _ a b => [a, b]
  | .ld _ a _ | .ldhs _ a _ | .ldhu _ a _ | .ldbs _ a _ | .ldbu _ a _ | .addi _ a _ => [a]
  | .st v a _ | .sth v a _ | .stb v a _ => [a, v]
  | .jumpReg a | .callReg a => [a]
  | .jumpz a _ | .jumpnz a _ => [a]

/-- The register an instruction may write (R14): `r3` for CALL; MOVZ and MOVNZ only when the condition holds. -/
def dest : Instr → Option Reg
  | .nop | .halt | .jumpAbs .. | .jumpReg .. | .jumpz .. | .jumpnz .. | .st .. | .sth .. | .stb .. => none
  | .callAbs .. | .callReg .. => some linkReg
  | .movsi d _ | .movhi d _ => some d
  | .add d _ _ | .sub d _ _ | .mul d _ _ | .and d _ _ | .or d _ _ | .xor d _ _ => some d
  | .sll d _ _ | .srl d _ _ | .sra d _ _ => some d
  | .eq d _ _ | .neq d _ _ | .slt d _ _ | .ult d _ _ | .sle d _ _ | .ule d _ _ => some d
  | .movz d _ _ | .movnz d _ _ => some d
  | .ld d _ _ | .ldhs d _ _ | .ldhu d _ _ | .ldbs d _ _ | .ldbu d _ _ | .addi d _ _ => some d

/-- The bytes an instruction loads through the data interface; 0 for the others (R39, R179). -/
def loadBytes : Instr → Nat
  | .ld .. => 4
  | .ldhs .. | .ldhu .. => 2
  | .ldbs .. | .ldbu .. => 1
  | .nop | .halt | .movsi .. | .movhi .. | .add .. | .sub .. | .mul .. | .and .. | .or .. | .xor .. | .sll ..
  | .srl .. | .sra .. | .st .. | .sth .. | .stb .. | .jumpAbs .. | .callAbs .. | .jumpReg .. | .callReg .. | .eq ..
  | .neq .. | .slt .. | .ult .. | .sle .. | .ule .. | .movz .. | .movnz .. | .jumpz .. | .jumpnz .. | .addi .. => 0

/-- The bytes an instruction stores through the data interface; 0 for the others (R39, R196). -/
def storeBytes : Instr → Nat
  | .st .. => 4
  | .sth .. => 2
  | .stb .. => 1
  | .nop | .halt | .movsi .. | .movhi .. | .add .. | .sub .. | .mul .. | .and .. | .or .. | .xor .. | .sll ..
  | .srl .. | .sra .. | .ld .. | .ldhs .. | .ldhu .. | .ldbs .. | .ldbu .. | .jumpAbs .. | .callAbs .. | .jumpReg ..
  | .callReg .. | .eq .. | .neq .. | .slt .. | .ult .. | .sle .. | .ule .. | .movz .. | .movnz .. | .jumpz ..
  | .jumpnz .. | .addi .. => 0

/-- The instructions that may write the program counter something else than `A + 4` (R18). -/
def transfersControl : Instr → Bool
  | .jumpAbs .. | .callAbs .. | .jumpReg .. | .callReg .. | .jumpz .. | .jumpnz .. => true
  | .nop | .halt | .movsi .. | .movhi .. | .add .. | .sub .. | .mul .. | .and .. | .or .. | .xor .. | .sll ..
  | .srl .. | .sra .. | .ld .. | .ldhs .. | .ldhu .. | .ldbs .. | .ldbu .. | .st .. | .sth .. | .stb .. | .eq ..
  | .neq .. | .slt .. | .ult .. | .sle .. | .ule .. | .movz .. | .movnz .. | .addi .. => false

/-- The mask of a format with `STRICT_UNUSED`: the bits the table fixes (R90). With `STRICT_UNUSED` false it is
`0xFF000000` for every format. -/
def matchMask : Format → Word
  | .spc => 0xFFFFFFFF
  | .rrr => 0xFF0001FF
  | .mi | .ri | .st | .j => 0xFF000000
  | .jr => 0xFFFFC1FF
  | .cj => 0xFF003E00

/-- The "Latency" row (R271): 2 for the five loads, 1 for the others. Timing only; the step has no notion of time
(log entry 26). -/
def latency (i : Instr) : Nat := if loadBytes i = 0 then 1 else 2

/-- The software roles of R13. -/
inductive RegRole where
  | stackPointer | basePointer | auxiliary | returnAddress | argumentOrReturnValue | noRole
  deriving DecidableEq, Repr

/-- The "description" column of R13; a convention, but for `r3` in CALL. -/
def regRole (r : Reg) : RegRole :=
  if r.val = 0 then .stackPointer
  else if r.val = 1 then .basePointer
  else if r.val = 2 then .auxiliary
  else if r.val = 3 then .returnAddress
  else if r.val ≤ 7 then .argumentOrReturnValue
  else .noRole

/-- The C types of R51. -/
inductive CType where
  | longLong | long | int | short | char | pointer
  deriving DecidableEq, Repr

/-- Size in bytes (R51). A compiler convention. -/
def cSize : CType → Nat
  | .longLong => 8
  | .long | .int | .pointer => 4
  | .short => 2
  | .char => 1

/-- Alignment in bytes (R51). -/
def cAlign : CType → Nat
  | .longLong | .long | .int | .pointer => 4
  | .short => 2
  | .char => 1

end Sys2Proof.Machine
end

