-- ==== Sys2Proof/Safety.lean ====
section
/-! DEFINITION. The terms the statements use: the invariant of the machine, what one instruction leaves unchanged, the
conditions under which an access completes, and agreement of two states. -/

namespace Sys2Proof.Machine

/-- The invariant of every state a run reaches: `pc` is a multiple of 4 (R17), unless the machine has halted and `pc` is
not to be observed (R28); memory is in canonical form; only
addresses of `MEM_MAP` hold a value (R41, R50); `CMP_TRUE` is not zero (R3, R141). -/
abbrev StepInv (s : State) : Prop :=
  (s.halted = false → s.pc.toNat % 4 = 0) ∧ s.mem.wf ∧ (∀ c ∈ s.mem, inRegions s.params.memMap c.1 = true) ∧ s.params.wf

/-- Every register but those in `ds` is as before. -/
def SameRegsBut (ds : List Reg) (s t : State) : Prop := ∀ r, r ∉ ds → t.readReg r = s.readReg r

/-- Every byte of memory reads as before, but at the addresses in `as`. -/
def SameBytesBut (as : List Nat) (s t : State) : Prop := ∀ a, a ∉ as → t.mem.read a = s.mem.read a

/-- The frame of one instruction that does not halt: registers but `ds`, bytes but those at `as`, `halted` and the
parameters are as before. -/
def Frame (ds : List Reg) (as : List Nat) (s t : State) : Prop :=
  SameRegsBut ds s t ∧ SameBytesBut as s t ∧ t.halted = s.halted ∧ t.params = s.params

/-- `i` completes at `s`: it answers a next state in which DST `d` holds a value with property `P`, `pc` is `A + 4`, and
nothing else has changed. -/
def WritesReg (i : Instr) (d : Reg) (s : State) (P : Word → Prop) : Prop :=
  ∃ t, exec i s = .next t ∧ P (t.readReg d) ∧ t.pc = s.pc + 4#32 ∧ Frame [d] [] s t

/-- `i` completes at `s` by going to `target` and changing nothing else. -/
def GoesTo (i : Instr) (s : State) (target : Word) : Prop :=
  ∃ t, exec i s = .next t ∧ t.pc = target ∧ Frame [] [] s t

/-- `i` completes at `s` by going to `target` with the address of the instruction after it in `r3`, and changing nothing
else. -/
def CallsTo (i : Instr) (s : State) (target : Word) : Prop :=
  ∃ t, exec i s = .next t ∧ t.pc = target ∧ t.readReg 3 = s.pc + 4#32 ∧ Frame [3] [] s t

/-- Memory exists at each of the `n` addresses of an access at `a` (R41). -/
abbrev Mapped (s : State) (a : Word) (n : Nat) : Prop :=
  ∀ k < n, inRegions s.params.memMap (a + BitVec.ofNat 32 k).toNat = true

/-- None of the `n` addresses of an access at `a` is in `CODE_REGION` (R46). -/
abbrev OutsideCode (s : State) (a : Word) (n : Nat) : Prop :=
  ∀ k < n, inRegions s.params.codeRegion (a + BitVec.ofNat 32 k).toNat = false

/-- The byte at address `a + k` modulo 2^32, if it holds a value (R32). -/
def byteAt (s : State) (a : Word) (k : Nat) : Option Byte := s.mem.read (a + BitVec.ofNat 32 k).toNat

/-- The `n` addresses of an access at `a`, modulo 2^32 (R32). -/
def addrsOf (a : Word) (n : Nat) : List Nat := (List.range n).map fun k => (a + BitVec.ofNat 32 k).toNat

/-- The instruction of format F-RRR `c` has the syntax, the two encodings and the Latency 1 that its rule gives it (R63,
R75, R76, R82, R271). -/
def SpelledRRR (c : Reg → Reg → Reg → Instr) (mnemonic : String) (section7 listing8 : BitVec 8) : Prop :=
  ∀ d a b : Reg,
    instrTokens (c d a b) = [.name (regName d), .sym '=', .name mnemonic.toList, .name (regName a), .sym ',',
      .name (regName b)] ∧
    encode .section7 (c d a b) =
      section7 ++ ((BitVec.ofFin d : BitVec 5) ++ (BitVec.ofFin a : BitVec 5) ++ (BitVec.ofFin b : BitVec 5) ++ 0#9) ∧
    encode .listing8 (c d a b) =
      listing8 ++ ((BitVec.ofFin d : BitVec 5) ++ (BitVec.ofFin a : BitVec 5) ++ (BitVec.ofFin b : BitVec 5) ++ 0#9) ∧
    latency (c d a b) = 1

/-- Two states agree but for registers outside `rs`. -/
def AgreeOn (rs : List Reg) (s s' : State) : Prop :=
  (∀ r ∈ rs, s.readReg r = s'.readReg r) ∧ s.pc = s'.pc ∧ s.mem = s'.mem ∧ s.halted = s'.halted ∧ s.params = s'.params

/-- What a claim may compare of two states, but for registers: memory, `halted`, the parameters, and `pc` unless the
machine has halted (R28: `pc` is then "not part of what a claim may observe"). -/
def AgreeAfter (t t' : State) : Prop :=
  (t.halted = false → t.pc = t'.pc) ∧ t.mem = t'.mem ∧ t.halted = t'.halted ∧ t.params = t'.params

/-- The load with this destination, base and displacement. -/
def IsLoad (i : Instr) (d a : Reg) (im : BitVec 14) : Prop :=
  i = .ld d a im ∨ i = .ldhs d a im ∨ i = .ldhu d a im ∨ i = .ldbs d a im ∨ i = .ldbu d a im

/-- The store with this value register, base and displacement. -/
def IsStore (i : Instr) (v a : Reg) (im : BitVec 14) : Prop := i = .st v a im ∨ i = .sth v a im ∨ i = .stb v a im

end Sys2Proof.Machine
end

