-- ==== Sys2Proof/Certificates/Slice0/Obligations.lean ====
section
/-! DEFINITION. The statements for the provers. -/

open Sys2Proof Sys2Proof.Machine

/-! ### Encoding and decoding -/

/-- The bytes of every instruction, as memory stores them, decode to that instruction, under either opcode map and
either value of `STRICT_UNUSED` (R90). No well-formedness is asked: every operand at every value its field admits. -/
def Obligations.DecodeOfEncodedBytes : Prop :=
  ∀ (m : OpcodeMap) (strict : Bool) (i : Instr), decodeBytes m strict (toBigEndian 4 (encode m i)) = .ok i

/-- With `STRICT_UNUSED`, a word that decodes is the encoding of what it decodes to: each word has one meaning (R90). -/
def Obligations.EncodeOfDecodedWord : Prop :=
  ∀ (m : OpcodeMap) (w : Word) (i : Instr), decodeWord m true w = .ok i → encode m i = w

/-- The (match, mask) pairs of R90: a word is an instruction of operation `op` exactly when its masked bits are the
opcode in bits 31:24 over zeros. -/
def Obligations.DecodesIffMaskMatches : Prop :=
  ∀ (m : OpcodeMap) (w : Word) (op : Op),
    ((∃ i, decodeWord m true w = .ok i ∧ opOf i = op) ↔ w &&& matchMask (formatOf op) = opcode m op ++ 0#24) ∧
    ((∃ i, decodeWord m false w = .ok i ∧ opOf i = op) ↔ w &&& 0xFF000000#32 = opcode m op ++ 0#24)

/-- With `STRICT_UNUSED` false the UNUSED bits are ignored (R77): the word decodes as the one with those bits cleared. -/
def Obligations.LooseDecodeClearsUnused : Prop :=
  ∀ (m : OpcodeMap) (w : Word) (op : Op), opOfOpcode m (opcField w) = some op →
    decodeWord m false w = decodeWord m true (w &&& ~~~ unusedMask (formatOf op))

/-- R61, R62, R63, R67, R68: the opcode stands in bits 31:24 and alone selects the instruction; F-SPC, F-RRR, F-J and
F-JR have the fields those rules give them, UNUSED bits zero. -/
def Obligations.FieldsOfUnsplitFormats : Prop :=
  (∀ (m : OpcodeMap) (i : Instr), (encode m i).extractLsb' 24 8 = opcode m (opOf i)) ∧
  (∀ (m : OpcodeMap) (strict : Bool) (w w' : Word) (i i' : Instr), w.extractLsb' 24 8 = w'.extractLsb' 24 8 →
    decodeWord m strict w = .ok i → decodeWord m strict w' = .ok i' → opOf i = opOf i') ∧
  (∀ (m : OpcodeMap) (i : Instr), i ∈ [.nop, .halt] → (encode m i).extractLsb' 0 24 = 0#24) ∧
  (∀ (m : OpcodeMap) (d a b : Reg) (i : Instr),
    i ∈ [.movz d a b, .movnz d a b, .add d a b, .sub d a b, .mul d a b, .and d a b, .or d a b, .xor d a b, .sll d a b,
      .srl d a b, .sra d a b, .eq d a b, .neq d a b, .slt d a b, .ult d a b, .sle d a b, .ule d a b] →
    (encode m i).extractLsb' 19 5 = BitVec.ofFin d ∧ (encode m i).extractLsb' 14 5 = BitVec.ofFin a ∧
      (encode m i).extractLsb' 9 5 = BitVec.ofFin b ∧ (encode m i).extractLsb' 0 9 = 0#9) ∧
  (∀ (m : OpcodeMap) (t : BitVec 24) (i : Instr), i ∈ [.jumpAbs t, .callAbs t] →
    (encode m i).extractLsb' 0 24 = t) ∧
  (∀ (m : OpcodeMap) (a : Reg) (i : Instr), i ∈ [.jumpReg a, .callReg a] →
    (encode m i).extractLsb' 14 10 = 0#10 ∧ (encode m i).extractLsb' 9 5 = BitVec.ofFin a ∧
      (encode m i).extractLsb' 0 9 = 0#9)

/-- R64, R65, R66, R69 with the piece order of R70, R71, R73 (the spec's decision D2, log entry 10): the fields of F-MI,
F-RI, F-ST and F-CJ, the high piece of a split immediate in bits 23:19. -/
def Obligations.FieldsOfSplitFormats : Prop :=
  (∀ (m : OpcodeMap) (d : Reg) (im : BitVec 19) (i : Instr), i ∈ [.movsi d im, .movhi d im] →
    (encode m i).extractLsb' 19 5 = im.extractLsb' 14 5 ∧ (encode m i).extractLsb' 14 5 = BitVec.ofFin d ∧
      (encode m i).extractLsb' 0 14 = im.extractLsb' 0 14) ∧
  (∀ (m : OpcodeMap) (d a : Reg) (im : BitVec 14) (i : Instr), IsLoad i d a im ∨ i = .addi d a im ∨ IsStore i d a im →
    (encode m i).extractLsb' 19 5 = im.extractLsb' 9 5 ∧ (encode m i).extractLsb' 14 5 = BitVec.ofFin a ∧
      (encode m i).extractLsb' 9 5 = BitVec.ofFin d ∧ (encode m i).extractLsb' 0 9 = im.extractLsb' 0 9) ∧
  (∀ (m : OpcodeMap) (a : Reg) (r : BitVec 14) (i : Instr), i ∈ [.jumpz a r, .jumpnz a r] →
    (encode m i).extractLsb' 19 5 = r.extractLsb' 9 5 ∧ (encode m i).extractLsb' 14 5 = BitVec.ofFin a ∧
      (encode m i).extractLsb' 9 5 = 0#5 ∧ (encode m i).extractLsb' 0 9 = r.extractLsb' 0 9)

/-- The two opcode maps: the relation of R76 between them, and the unassigned values of R78 under each. -/
def Obligations.OpcodeMapsRelatedAndUnassigned : Prop :=
  (∀ op, op ∈ [Op.nop, .halt, .movsi, .movhi] → opcode .listing8 op = opcode .section7 op) ∧
  (∀ op, op ∉ [Op.nop, .halt, .movsi, .movhi] → opcode .listing8 op = opcode .section7 op - 1#8) ∧
  (∀ b : BitVec 8, opOfOpcode .section7 b = none ↔ b = 0x04#8 ∨ 0x25 ≤ b.toNat) ∧
  (∀ b : BitVec 8, opOfOpcode .listing8 b = none ↔ 0x24 ≤ b.toNat)

/-- Words of 95_test_vectors.md, one per format and some that are no instruction. -/
def Obligations.SampleWordsDecode : Prop :=
  decodeWord .section7 true 0x00000000 = .ok .nop ∧
  decodeWord .section7 true 0x05088600 = .ok (.add 1 2 3) ∧
  decodeWord .section7 true 0x02F87FFF = .ok (.movsi 1 0x7FFFF) ∧
  decodeWord .section7 true 0x0EF809FC = .ok (.ld 4 0 0x3FFC) ∧
  decodeWord .section7 true 0x13F809FC = .ok (.st 4 0 0x3FFC) ∧
  decodeWord .section7 true 0x17000040 = .ok (.callAbs 0x40) ∧
  decodeWord .section7 true 0x18000600 = .ok (.jumpReg 3) ∧
  decodeWord .section7 true 0x23F841F4 = .ok (.jumpnz 1 0x3FF4) ∧
  decodeWord .listing8 true 0x23F841F4 = .ok (.addi 0 1 0x3FF4) ∧
  decodeWord .section7 true 0x20088600 = .ok (.movz 1 2 3) ∧
  decodeWord .listing8 true 0x20088600 = .ok (.movnz 1 2 3) ∧
  decodeWord .section7 true 0x05088601 = .error .unusedNotZero ∧
  decodeWord .section7 false 0x05088601 = .ok (.add 1 2 3) ∧
  decodeWord .section7 true 0x04088600 = .error .unassignedOpcode

/-- The tokens of every instruction's statement parse to that instruction (R75 "syntax", R82; the written form of
numbers is the model's, log entry 27). -/
def Obligations.ParseOfWrittenInstruction : Prop := ∀ i : Instr, parseInstr [] (instrTokens i) = some (.ready i)

/-! ### Memory -/

/-- R32: `MemRead` is big-endian, for 1, 2 and 4 bytes, byte addresses modulo 2^32. -/
def Obligations.MemReadIsBigEndian : Prop :=
  ∀ (s : State) (a : Word) (b0 b1 b2 b3 : Byte),
    (Mapped s a 1 → byteAt s a 0 = some b0 → memRead s a 1 = .ok (b0.setWidth 32)) ∧
    (a.toNat % 2 = 0 → Mapped s a 2 → byteAt s a 0 = some b0 → byteAt s a 1 = some b1 →
      memRead s a 2 = .ok ((b0 ++ b1).setWidth 32)) ∧
    (a.toNat % 4 = 0 → Mapped s a 4 → byteAt s a 0 = some b0 → byteAt s a 1 = some b1 → byteAt s a 2 = some b2 →
      byteAt s a 3 = some b3 → memRead s a 4 = .ok (b0 ++ b1 ++ b2 ++ b3))

/-- R33: `MemWrite` is big-endian, for 1, 2 and 4 bytes, and no other byte changes. -/
def Obligations.MemWriteIsBigEndian : Prop :=
  ∀ (s : State) (a v : Word),
    (Mapped s a 1 → OutsideCode s a 1 → ∃ t, memWrite s a 1 v = .next t ∧
      byteAt t a 0 = some (v.extractLsb' 0 8) ∧ Frame [] (addrsOf a 1) s t ∧ t.pc = s.pc) ∧
    (a.toNat % 2 = 0 → Mapped s a 2 → OutsideCode s a 2 → ∃ t, memWrite s a 2 v = .next t ∧
      byteAt t a 0 = some (v.extractLsb' 8 8) ∧ byteAt t a 1 = some (v.extractLsb' 0 8) ∧
      Frame [] (addrsOf a 2) s t ∧ t.pc = s.pc) ∧
    (a.toNat % 4 = 0 → Mapped s a 4 → OutsideCode s a 4 → ∃ t, memWrite s a 4 v = .next t ∧
      byteAt t a 0 = some (v.extractLsb' 24 8) ∧ byteAt t a 1 = some (v.extractLsb' 16 8) ∧
      byteAt t a 2 = some (v.extractLsb' 8 8) ∧ byteAt t a 3 = some (v.extractLsb' 0 8) ∧
      Frame [] (addrsOf a 4) s t ∧ t.pc = s.pc)

/-- R38: a stored word read back by bytes and by half-words. -/
def Obligations.WordReadBackInPieces : Prop :=
  ∀ (s t : State) (a v : Word), memWrite s a 4 v = .next t →
    memRead t a 1 = .ok ((v.extractLsb' 24 8).setWidth 32) ∧
    memRead t (a + 1#32) 1 = .ok ((v.extractLsb' 16 8).setWidth 32) ∧
    memRead t (a + 2#32) 1 = .ok ((v.extractLsb' 8 8).setWidth 32) ∧
    memRead t (a + 3#32) 1 = .ok ((v.extractLsb' 0 8).setWidth 32) ∧
    memRead t a 2 = .ok ((v.extractLsb' 16 16).setWidth 32) ∧
    memRead t (a + 2#32) 2 = .ok ((v.extractLsb' 0 16).setWidth 32) ∧
    memRead t a 4 = .ok v

/-- The canonical form makes equal memories equal data (the model's own representation, log entry 8): two memories in
that form that read alike at every address are one list. -/
def Obligations.CanonicalMemoriesEqual : Prop :=
  ∀ m m' : Memory, m.wf → m'.wf → (∀ a, m.read a = m'.read a) → m = m'

/-- R43, R49: a load of the width of a store, at the same address, gives what was stored, extended as the load says. -/
def Obligations.LoadAfterStore : Prop :=
  ∀ (s t : State) (v a : Reg) (im : BitVec 14) (d : Reg),
    (exec (.st v a im) s = .next t → WritesReg (.ld d a im) d t (fun x => x = s.readReg v)) ∧
    (exec (.sth v a im) s = .next t →
      WritesReg (.ldhu d a im) d t (fun x => x.toNat = (s.readReg v).toNat % 65536) ∧
      WritesReg (.ldhs d a im) d t (fun x => x.toInt = ((s.readReg v).toInt).bmod 65536)) ∧
    (exec (.stb v a im) s = .next t →
      WritesReg (.ldbu d a im) d t (fun x => x.toNat = (s.readReg v).toNat % 256) ∧
      WritesReg (.ldbs d a im) d t (fun x => x.toInt = ((s.readReg v).toInt).bmod 256))

/-- R30, R34: code and data are one space; the word a store writes is the word a later fetch at that address gets. That
a store is seen by the fetch at all is the model's sequential reading for addresses outside `CODE_REGION` (log entries 9
and 16). -/
def Obligations.StoredWordIsFetched : Prop :=
  ∀ (s t : State) (v a : Reg) (im : BitVec 14), exec (.st v a im) s = .next t →
    fetch (t.setPc (effAddr s a im)) = .ok (s.readReg v)

/-! ### The step -/

/-- R19: when the machine is not halted and the four bytes at an aligned `pc` are those of an instruction, the step is
`exec` of it at the same state, which updates `pc` itself: nothing is added around it. -/
def Obligations.StepRunsDecodedInstruction : Prop :=
  ∀ (s : State) (b0 b1 b2 b3 : Byte) (i : Instr), s.halted = false → s.pc.toNat % 4 = 0 → Mapped s s.pc 4 →
    byteAt s s.pc 0 = some b0 → byteAt s s.pc 1 = some b1 → byteAt s s.pc 2 = some b2 → byteAt s s.pc 3 = some b3 →
    decodeBytes s.params.opcodeMap s.params.strictUnused [b0, b1, b2, b3] = .ok i → step s = exec i s

/-- R19, R25, R78, R90, R232, R235: where the step stops before any instruction is executed. That a halted state answers
a named stop is the model's form of "has no step" (log entry 15). -/
def Obligations.StepStopsBeforeExecution : Prop :=
  (∀ s : State, s.halted = true → step s = .fault .halted) ∧
  (∀ s : State, s.halted = false → s.pc.toNat % 4 = 0 → ¬ Mapped s s.pc 4 → step s = .fault (.accessFault s.pc 4)) ∧
  (∀ s : State, s.halted = false → s.pc.toNat % 4 = 0 → Mapped s s.pc 4 → (∃ k < 4, byteAt s s.pc k = none) →
    step s = .fault (.uninitialisedRead s.pc 4)) ∧
  (∀ (s : State) (b0 b1 b2 b3 : Byte) (e : DecodeError), s.halted = false → s.pc.toNat % 4 = 0 → Mapped s s.pc 4 →
    byteAt s s.pc 0 = some b0 → byteAt s s.pc 1 = some b1 → byteAt s s.pc 2 = some b2 → byteAt s s.pc 3 = some b3 →
    decodeWord s.params.opcodeMap s.params.strictUnused (b0 ++ b1 ++ b2 ++ b3) = .error e →
    step s = .fault (.illegalInstruction (b0 ++ b1 ++ b2 ++ b3) s.pc))

/-- A word placed where the step fetches is the instruction the step runs: `withFetchWord` stands for the load of a
program (R246, log entry 8). -/
def Obligations.StepRunsPlacedWord : Prop :=
  ∀ (s : State) (i : Instr), s.halted = false → s.pc.toNat % 4 = 0 → Mapped s s.pc 4 →
    step (s.withFetchWord 32 (encode s.params.opcodeMap i).toNat) =
      exec i (s.withFetchWord 32 (encode s.params.opcodeMap i).toNat)

/-! ### Reset -/

/-- R15: every register is zero after reset, whatever the launch parameters. -/
def Obligations.ResetZeroesRegisters : Prop :=
  (∀ r, State.reset.readReg r = 0x00000000#32) ∧
  ∀ (l : LaunchParams) (r : Reg), (State.launch l).readReg r = 0x00000000#32

/-- The rest of R260. The reset state is the launch with the defaults of R3 and an empty image, which are the model's
choices (log entries 6, 8 and 9); a launch has `pc`, memory and parameters as given. -/
def Obligations.ResetRest : Prop :=
  State.reset = State.launch {} ∧ State.reset.pc = 0#32 ∧ State.reset.halted = false ∧
  (∀ a, State.reset.mem.read a = none) ∧ State.reset.params = Config.params ∧
  ∀ l : LaunchParams, (State.launch l).pc = l.resetPc ∧ (State.launch l).halted = false ∧
    (State.launch l).params = ⟨l.opcodeMap, l.strictUnused, l.condJumpBase, l.cmpTrue, l.memMap, l.codeRegion⟩

/-- R3, R46, R50: after a launch each word of the program is what a fetch at its address gets, each byte of data outside
the program is what its address reads as, and no other byte holds a value; and with `CODE_REGION` at its default an
address is in it exactly when it holds a byte of the program. -/
def Obligations.LaunchPlacesProgram : Prop :=
  ∀ l : LaunchParams, LaunchWf l → l.memInit.program.Pairwise (fun p q => p.1 ≠ q.1) →
    l.memInit.data.Pairwise (fun c d => c.1 ≠ d.1) →
    (∀ p ∈ l.memInit.program, fetch ((State.launch l).setPc p.1) = .ok p.2) ∧
    (∀ c ∈ l.memInit.data, (∀ p ∈ l.memInit.program, c.1 ∉ addrsOf p.1 4) →
      (State.launch l).mem.read c.1 = some c.2) ∧
    (∀ a, (∀ p ∈ l.memInit.program, a ∉ addrsOf p.1 4) → (∀ c ∈ l.memInit.data, c.1 ≠ a) →
      (State.launch l).mem.read a = none) ∧
    (l.codeRegion = codeRegionOf l.memInit →
      ∀ a, inRegions (State.launch l).params.codeRegion a = true ↔ ∃ p ∈ l.memInit.program, a ∈ addrsOf p.1 4)

/-- R46 with the default `CODE_REGION` of R3: in a launch that gives none of its own, a store that touches a byte of the
program, aligned and mapped, is refused, from every state the run reaches. -/
def Obligations.LaunchedProgramIsGuarded : Prop :=
  ∀ (l : LaunchParams) (k : Nat) (s : State) (i : Instr) (v a : Reg) (im : BitVec 14),
    l.codeRegion = codeRegionOf l.memInit → Host.Core.run Sys2Proof.core k (State.launch l) = .next s →
    IsStore i v a im → (effAddr s a im).toNat % storeBytes i = 0 → Mapped s (effAddr s a im) (storeBytes i) →
    (∃ p ∈ l.memInit.program, p.1.toNat % 4 = 0 ∧
      ∃ x ∈ addrsOf (effAddr s a im) (storeBytes i), x ∈ addrsOf p.1 4) →
    exec i s = .refused (.codeWriteRefused (effAddr s a im) (storeBytes i))

/-! ### Results of the instructions -/

/-- R130: each of the fifteen instructions of the family computes a result from the two source values (and, for a
comparison, `CMP_TRUE`), writes it to DST, goes to `A + 4`, changes nothing else and never stops, whatever registers DST,
SRC1 and SRC2 are. -/
def Obligations.AluCommonRule : Prop :=
  ∀ c ∈ [Instr.add, .sub, .mul, .and, .or, .xor, .sll, .srl, .sra, .eq, .neq, .slt, .ult, .sle, .ule],
    ∃ f : Word → Word → Word → Word, ∀ (s : State) (d a b : Reg),
      WritesReg (c d a b) d s (fun v => v = f s.params.cmpTrue (s.readReg a) (s.readReg b))

/-- R131, R132, R133: syntax, encodings, Latency and results of ADD, SUB and MUL, in exact arithmetic narrowed to 32
bits. -/
def Obligations.ArithmeticResults : Prop :=
  SpelledRRR .add "add" 0x05 0x04 ∧ SpelledRRR .sub "sub" 0x06 0x05 ∧ SpelledRRR .mul "mul" 0x07 0x06 ∧
  ∀ (s : State) (d a b : Reg),
    WritesReg (.add d a b) d s (fun v => v.toNat = ((s.readReg a).toNat + (s.readReg b).toNat) % 2 ^ 32) ∧
    WritesReg (.sub d a b) d s (fun v => (v.toNat : Int) = ((s.readReg a).toNat - (s.readReg b).toNat : Int) % 2 ^ 32) ∧
    WritesReg (.mul d a b) d s (fun v => v.toNat = ((s.readReg a).toNat * (s.readReg b).toNat) % 2 ^ 32 ∧
      v.toInt = ((s.readReg a).toInt * (s.readReg b).toInt).bmod (2 ^ 32))

/-- R134, R135, R136: syntax, encodings, Latency and results of AND, OR and XOR, bit by bit. -/
def Obligations.LogicResults : Prop :=
  SpelledRRR .and "and" 0x08 0x07 ∧ SpelledRRR .or "or" 0x09 0x08 ∧ SpelledRRR .xor "xor" 0x0A 0x09 ∧
  ∀ (s : State) (d a b : Reg),
    WritesReg (.and d a b) d s (fun v => ∀ k < 32,
      v.getLsbD k = ((s.readReg a).getLsbD k && (s.readReg b).getLsbD k)) ∧
    WritesReg (.or d a b) d s (fun v => ∀ k < 32,
      v.getLsbD k = ((s.readReg a).getLsbD k || (s.readReg b).getLsbD k)) ∧
    WritesReg (.xor d a b) d s (fun v => ∀ k < 32,
      v.getLsbD k = ((s.readReg a).getLsbD k != (s.readReg b).getLsbD k))

/-- R137, R138, R139: syntax, encodings, Latency and results of SLL, SRL and SRA; the amount is SRC2 modulo 32, SRA
rounds toward minus infinity. -/
def Obligations.ShiftResults : Prop :=
  SpelledRRR .sll "sll" 0x0B 0x0A ∧ SpelledRRR .srl "srl" 0x0C 0x0B ∧ SpelledRRR .sra "sra" 0x0D 0x0C ∧
  ∀ (s : State) (d a b : Reg),
    WritesReg (.sll d a b) d s (fun v =>
      v.toNat = ((s.readReg a).toNat * 2 ^ ((s.readReg b).toNat % 32)) % 2 ^ 32) ∧
    WritesReg (.srl d a b) d s (fun v => v.toNat = (s.readReg a).toNat / 2 ^ ((s.readReg b).toNat % 32)) ∧
    WritesReg (.sra d a b) d s (fun v => v.toInt = (s.readReg a).toInt / 2 ^ ((s.readReg b).toNat % 32))

/-- R142 to R147: syntax, encodings, Latency and results of the six comparisons, for every value of `CMP_TRUE`. -/
def Obligations.ComparisonResults : Prop :=
  SpelledRRR .eq "eq" 0x1A 0x19 ∧ SpelledRRR .neq "neq" 0x1B 0x1A ∧ SpelledRRR .slt "slt" 0x1C 0x1B ∧
  SpelledRRR .ult "ult" 0x1D 0x1C ∧ SpelledRRR .sle "sle" 0x1E 0x1D ∧ SpelledRRR .ule "ule" 0x1F 0x1E ∧
  ∀ (s : State) (d a b : Reg),
    WritesReg (.eq d a b) d s (fun v =>
      v = if (s.readReg a).toNat = (s.readReg b).toNat then s.params.cmpTrue else 0#32) ∧
    WritesReg (.neq d a b) d s (fun v =>
      v = if (s.readReg a).toNat = (s.readReg b).toNat then 0#32 else s.params.cmpTrue) ∧
    WritesReg (.slt d a b) d s (fun v =>
      v = if (s.readReg a).toInt < (s.readReg b).toInt then s.params.cmpTrue else 0#32) ∧
    WritesReg (.ult d a b) d s (fun v =>
      v = if (s.readReg a).toNat < (s.readReg b).toNat then s.params.cmpTrue else 0#32) ∧
    WritesReg (.sle d a b) d s (fun v =>
      v = if (s.readReg a).toInt ≤ (s.readReg b).toInt then s.params.cmpTrue else 0#32) ∧
    WritesReg (.ule d a b) d s (fun v =>
      v = if (s.readReg a).toNat ≤ (s.readReg b).toNat then s.params.cmpTrue else 0#32)

/-- R141: whatever non-zero word `CMP_TRUE` is, MOVNZ and JUMPNZ on the result of a comparison do what the comparison
says. -/
def Obligations.ComparisonsDriveConditions : Prop :=
  ∀ (s : State) (d a b : Reg), s.params.wf →
    ∀ c ∈ [(Instr.eq d a b, decide ((s.readReg a).toNat = (s.readReg b).toNat)),
        (.neq d a b, decide ((s.readReg a).toNat ≠ (s.readReg b).toNat)),
        (.slt d a b, decide ((s.readReg a).toInt < (s.readReg b).toInt)),
        (.ult d a b, decide ((s.readReg a).toNat < (s.readReg b).toNat)),
        (.sle d a b, decide ((s.readReg a).toInt ≤ (s.readReg b).toInt)),
        (.ule d a b, decide ((s.readReg a).toNat ≤ (s.readReg b).toNat))],
      ∃ t, exec c.1 s = .next t ∧
        (∀ x y : Reg, WritesReg (.movnz x d y) x t (fun v => v = if c.2 then t.readReg y else t.readReg x)) ∧
        (∀ r : BitVec 14, c.2 = false → GoesTo (.jumpnz d r) t (t.pc + 4#32)) ∧
        (∀ r : BitVec 14, c.2 = true → (relTarget t r).toNat % 4 = 0 → GoesTo (.jumpnz d r) t (relTarget t r))

/-- R110, R111: syntax, encodings, Latency and results of MOVZ and MOVNZ; when the condition fails no register
changes at all. -/
def Obligations.ConditionalMoveResults : Prop :=
  SpelledRRR .movz "movz" 0x20 0x1F ∧ SpelledRRR .movnz "movnz" 0x21 0x20 ∧
  ∀ (s : State) (d a b : Reg),
    ((s.readReg a).toNat = 0 →
      WritesReg (.movz d a b) d s (fun v => v = s.readReg b) ∧ GoesTo (.movnz d a b) s (s.pc + 4#32)) ∧
    ((s.readReg a).toNat ≠ 0 →
      WritesReg (.movnz d a b) d s (fun v => v = s.readReg b) ∧ GoesTo (.movz d a b) s (s.pc + 4#32))

/-- R120, R121: MOVSI gives the signed value of its 19-bit operand; MOVHI puts operand bits 15:0 over the kept low half,
and operand bits 18:16 do not matter. -/
def Obligations.MoveImmediateResults : Prop :=
  ∀ (s : State) (d : Reg) (im : BitVec 19),
    WritesReg (.movsi d im) d s (fun v => v.toInt = im.toInt) ∧
    WritesReg (.movhi d im) d s (fun v =>
      v.toNat = (im.toNat % 65536) * 65536 + (s.readReg d).toNat % 65536)

/-- R122: MOVSI of the low half of `K`, then MOVHI of its high half, leaves `K` in the register and nothing else changed. -/
def Obligations.ConstantInTwoInstructions : Prop :=
  ∀ (s : State) (d : Reg) (K : Word),
    ∃ t, exec (.movsi d ((K.extractLsb' 0 16).setWidth 19)) s = .next t ∧
      ∃ u, exec (.movhi d ((K.extractLsb' 16 16).setWidth 19)) t = .next u ∧
        u.readReg d = K ∧ u.pc = s.pc + 8#32 ∧ Frame [d] [] s u

/-- R160: ADDI, in exact arithmetic narrowed to 32 bits. -/
def Obligations.AddImmediateResult : Prop :=
  ∀ (s : State) (d a : Reg) (im : BitVec 14),
    WritesReg (.addi d a im) d s (fun v => (v.toNat : Int) = ((s.readReg a).toNat + im.toInt) % 2 ^ 32)

/-- R40, R170, R190: the effective address of loads and stores is base plus signed displacement, modulo 2^32. -/
def Obligations.EffectiveAddressIsExact : Prop :=
  ∀ (s : State) (a : Reg) (im : BitVec 14),
    ((effAddr s a im).toNat : Int) = ((s.readReg a).toNat + im.toInt) % 2 ^ 32

/-- R171 to R176: what each load writes to DST when its address is aligned, memory exists there and the bytes hold
values; the displacement and DST = SRC as R170 and R177 say. -/
def Obligations.LoadResults : Prop :=
  ∀ (s : State) (d a : Reg) (im : BitVec 14) (b0 b1 b2 b3 : Byte),
    (Mapped s (effAddr s a im) 1 → byteAt s (effAddr s a im) 0 = some b0 →
      WritesReg (.ldbu d a im) d s (fun v => v.toNat = b0.toNat) ∧
      WritesReg (.ldbs d a im) d s (fun v => v.toInt = b0.toInt)) ∧
    ((effAddr s a im).toNat % 2 = 0 → Mapped s (effAddr s a im) 2 → byteAt s (effAddr s a im) 0 = some b0 →
      byteAt s (effAddr s a im) 1 = some b1 →
      WritesReg (.ldhu d a im) d s (fun v => v.toNat = b0.toNat * 256 + b1.toNat) ∧
      WritesReg (.ldhs d a im) d s (fun v => v.toInt = b0.toInt * 256 + b1.toNat)) ∧
    ((effAddr s a im).toNat % 4 = 0 → Mapped s (effAddr s a im) 4 → byteAt s (effAddr s a im) 0 = some b0 →
      byteAt s (effAddr s a im) 1 = some b1 → byteAt s (effAddr s a im) 2 = some b2 →
      byteAt s (effAddr s a im) 3 = some b3 →
      WritesReg (.ld d a im) d s (fun v =>
        v.toNat = ((b0.toNat * 256 + b1.toNat) * 256 + b2.toNat) * 256 + b3.toNat))

/-- R191 to R194: each store writes the low bits of SRC2, big-endian, at its effective address, and nothing else. -/
def Obligations.StoreResults : Prop :=
  ∀ (s : State) (v a : Reg) (im : BitVec 14),
    (Mapped s (effAddr s a im) 1 → OutsideCode s (effAddr s a im) 1 → ∃ t, exec (.stb v a im) s = .next t ∧
      byteAt t (effAddr s a im) 0 = some ((s.readReg v).extractLsb' 0 8) ∧ t.pc = s.pc + 4#32 ∧
      Frame [] (addrsOf (effAddr s a im) 1) s t) ∧
    ((effAddr s a im).toNat % 2 = 0 → Mapped s (effAddr s a im) 2 → OutsideCode s (effAddr s a im) 2 →
      ∃ t, exec (.sth v a im) s = .next t ∧
      byteAt t (effAddr s a im) 0 = some ((s.readReg v).extractLsb' 8 8) ∧
      byteAt t (effAddr s a im) 1 = some ((s.readReg v).extractLsb' 0 8) ∧ t.pc = s.pc + 4#32 ∧
      Frame [] (addrsOf (effAddr s a im) 2) s t) ∧
    ((effAddr s a im).toNat % 4 = 0 → Mapped s (effAddr s a im) 4 → OutsideCode s (effAddr s a im) 4 →
      ∃ t, exec (.st v a im) s = .next t ∧
      byteAt t (effAddr s a im) 0 = some ((s.readReg v).extractLsb' 24 8) ∧
      byteAt t (effAddr s a im) 1 = some ((s.readReg v).extractLsb' 16 8) ∧
      byteAt t (effAddr s a im) 2 = some ((s.readReg v).extractLsb' 8 8) ∧
      byteAt t (effAddr s a im) 3 = some ((s.readReg v).extractLsb' 0 8) ∧ t.pc = s.pc + 4#32 ∧
      Frame [] (addrsOf (effAddr s a im) 4) s t)

/-- R36, R41, R50, R176, R235: where the loads stop, in the order of the checks. -/
def Obligations.LoadStops : Prop :=
  ∀ (i : Instr) (s : State) (d a : Reg) (im : BitVec 14), IsLoad i d a im →
    ((effAddr s a im).toNat % loadBytes i ≠ 0 →
      exec i s = .fault (.misalignedAccess (effAddr s a im) (loadBytes i))) ∧
    ((effAddr s a im).toNat % loadBytes i = 0 → ¬ Mapped s (effAddr s a im) (loadBytes i) →
      exec i s = .fault (.accessFault (effAddr s a im) (loadBytes i))) ∧
    ((effAddr s a im).toNat % loadBytes i = 0 → Mapped s (effAddr s a im) (loadBytes i) →
      (∃ k < loadBytes i, byteAt s (effAddr s a im) k = none) →
      exec i s = .fault (.uninitialisedRead (effAddr s a im) (loadBytes i)))

/-- R36, R41, R46, R194, R235: where the stores stop, in the order of the checks. -/
def Obligations.StoreStops : Prop :=
  ∀ (i : Instr) (s : State) (v a : Reg) (im : BitVec 14), IsStore i v a im →
    ((effAddr s a im).toNat % storeBytes i ≠ 0 →
      exec i s = .fault (.misalignedAccess (effAddr s a im) (storeBytes i))) ∧
    ((effAddr s a im).toNat % storeBytes i = 0 → ¬ Mapped s (effAddr s a im) (storeBytes i) →
      exec i s = .fault (.accessFault (effAddr s a im) (storeBytes i))) ∧
    ((effAddr s a im).toNat % storeBytes i = 0 → Mapped s (effAddr s a im) (storeBytes i) →
      ¬ OutsideCode s (effAddr s a im) (storeBytes i) →
      exec i s = .refused (.codeWriteRefused (effAddr s a im) (storeBytes i)))

/-- R35: a load or store that completes had an address aligned to its width, and the byte accesses never stop for
alignment. -/
def Obligations.CompletedAccessesAreAligned : Prop :=
  (∀ (s t : State) (d a : Reg) (im : BitVec 14),
    (exec (.ld d a im) s = .next t ∨ exec (.st d a im) s = .next t → (effAddr s a im).toNat % 4 = 0) ∧
    (exec (.ldhu d a im) s = .next t ∨ exec (.ldhs d a im) s = .next t ∨ exec (.sth d a im) s = .next t →
      (effAddr s a im).toNat % 2 = 0)) ∧
  (∀ (s : State) (d a : Reg) (im : BitVec 14) (x : Word) (n : Nat),
    ∀ i ∈ [Instr.ldbu d a im, .ldbs d a im, .stb d a im], exec i s ≠ .fault (.misalignedAccess x n))

/-- R100, R101 with R20: NOP only advances `pc`, which wraps at the top of the address space; HALT sets `halted`, keeps
registers and memory, and the machine then has no step (`pc` after HALT is not observable, R28, and not mentioned). -/
def Obligations.NopAndHaltResults : Prop :=
  (∀ s : State, GoesTo .nop s (s.pc + 4#32)) ∧
  (∀ s : State, s.pc = 0xFFFFFFFC#32 → GoesTo .nop s 0x00000000#32) ∧
  (∀ s : State, ∃ t, exec .halt s = .next t ∧ t.halted = true ∧ SameRegsBut [] s t ∧ SameBytesBut [] s t ∧
    t.params = s.params ∧ step t = .fault .halted)

/-- R200, R201, R21: the absolute transfers go to the zero-extended ABS_ADDR, the old `pc` contributing nothing; CALL
links `A + 4`; a target that is not a multiple of 4 stops them. -/
def Obligations.AbsoluteTransfers : Prop :=
  ∀ (s : State) (t : BitVec 24),
    (t.toNat % 4 = 0 → GoesTo (.jumpAbs t) s (BitVec.ofNat 32 t.toNat) ∧
      CallsTo (.callAbs t) s (BitVec.ofNat 32 t.toNat)) ∧
    (t.toNat % 4 ≠ 0 → exec (.jumpAbs t) s = .fault (.misalignedTarget (BitVec.ofNat 32 t.toNat)) ∧
      exec (.callAbs t) s = .fault (.misalignedTarget (BitVec.ofNat 32 t.toNat)))

/-- R210, R211, R21: the register transfers go to all 32 bits of SRC; CALL (SRC other than `r3`) links `A + 4`. -/
def Obligations.RegisterTransfers : Prop :=
  ∀ (s : State) (a : Reg),
    ((s.readReg a).toNat % 4 = 0 → GoesTo (.jumpReg a) s (s.readReg a) ∧
      (a ≠ 3 → CallsTo (.callReg a) s (s.readReg a))) ∧
    ((s.readReg a).toNat % 4 ≠ 0 → exec (.jumpReg a) s = .fault (.misalignedTarget (s.readReg a)) ∧
      (a ≠ 3 → exec (.callReg a) s = .fault (.misalignedTarget (s.readReg a))))

/-- R212: `call r3` is refused, with the word that stands at `pc`, whatever `r3` holds (R235: before the target's
alignment). -/
def Obligations.CallR3Refused : Prop :=
  ∀ (s : State) (bits : Word), fetch s = .ok bits → exec (.callReg 3) s = .refused (.ambiguousCallR3 bits)

/-- R220, R221, R222, R21: the conditional jumps, taken and not taken; the target in exact arithmetic modulo 2^32, for
either `COND_JUMP_BASE`. -/
def Obligations.ConditionalJumps : Prop :=
  ∀ (s : State) (a : Reg) (r : BitVec 14),
    ((relTarget s r).toNat : Int) =
      (s.pc.toNat + (if s.params.condJumpBase = .four then 4 else 0) + r.toInt) % 2 ^ 32 ∧
    ((s.readReg a).toNat = 0 →
      GoesTo (.jumpnz a r) s (s.pc + 4#32) ∧
      ((relTarget s r).toNat % 4 = 0 → GoesTo (.jumpz a r) s (relTarget s r)) ∧
      ((relTarget s r).toNat % 4 ≠ 0 → exec (.jumpz a r) s = .fault (.misalignedTarget (relTarget s r)))) ∧
    ((s.readReg a).toNat ≠ 0 →
      GoesTo (.jumpz a r) s (s.pc + 4#32) ∧
      ((relTarget s r).toNat % 4 = 0 → GoesTo (.jumpnz a r) s (relTarget s r)) ∧
      ((relTarget s r).toNat % 4 ≠ 0 → exec (.jumpnz a r) s = .fault (.misalignedTarget (relTarget s r))))

/-- R202: after a call from an aligned `pc`, `jump r3` in any later state that still holds the link returns to the
instruction after the call. -/
def Obligations.ReturnAfterCall : Prop :=
  ∀ (i : Instr) (s t u : State), ((∃ x, i = .callAbs x) ∨ ∃ a, i = .callReg a) → s.pc.toNat % 4 = 0 →
    exec i s = .next t → u.readReg 3 = t.readReg 3 → GoesTo (.jumpReg 3) u (s.pc + 4#32)

/-- R21, R72, R73: a direct or relative transfer with a well-formed address field, at an aligned `pc`, always completes. -/
def Obligations.WellFormedTransfersComplete : Prop :=
  ∀ (i : Instr) (s : State), i.wellFormed = true → s.pc.toNat % 4 = 0 →
    ((∃ x, i = .jumpAbs x ∨ i = .callAbs x) ∨ ∃ a r, i = .jumpz a r ∨ i = .jumpnz a r) →
    ∃ t, exec i s = .next t ∧ t.pc.toNat % 4 = 0

/-- R220, R223: the assembler stores a relative address for exactly the labels in reach, and a taken jump with it goes
to the label, for either `COND_JUMP_BASE`. -/
def Obligations.AssembledBranchReachesLabel : Prop :=
  ∀ (s : State) (label : Word),
    ((∃ r, relField s.params.condJumpBase label s.pc = some r) ↔
      ∃ n : Int, -8192 ≤ n ∧ n ≤ 8191 ∧ label = s.pc + condJumpBase s.params.condJumpBase + BitVec.ofInt 32 n) ∧
    (∀ (r : BitVec 14) (a : Reg), relField s.params.condJumpBase label s.pc = some r → label.toNat % 4 = 0 →
      (s.readReg a = 0#32 → GoesTo (.jumpz a r) s label) ∧ (s.readReg a ≠ 0#32 → GoesTo (.jumpnz a r) s label))

/-! ### The whole machine -/

/-- Every step keeps the invariant: `pc` aligned while the machine has not halted, memory canonical and inside `MEM_MAP`, `CMP_TRUE` not zero. The
clauses on memory are the model's representation of R30, R41 and R50 (log entries 7 and 8). -/
def Obligations.StepKeepsInvariant : Prop := ∀ s t : State, StepInv s → step s = .next t → StepInv t

/-- The reset state has the invariant, and so has every launch whose parameters are as R3 asks. -/
def Obligations.LaunchHasInvariant : Prop :=
  StepInv State.reset ∧ ∀ l : LaunchParams, LaunchWf l → StepInv (State.launch l)

/-- R17: `pc[1:0] = 0b00` at every step boundary of every run that starts with it, an invariant that R21 keeps. After HALT
no step is left and `pc` is not to be observed (R28), so nothing is said of it there. -/
def Obligations.PcStaysAligned : Prop :=
  ∀ (k : Nat) (s t : State), s.pc.extractLsb' 0 2 = 0#2 → Host.Core.run Sys2Proof.core k s = .next t →
    t.halted = false → t.pc.extractLsb' 0 2 = 0#2

/-- R46, R272 over whole runs: from any state, after any number of steps, the bytes of `CODE_REGION` and the parameters
are what they were: no self-modifying code. -/
def Obligations.CodeBytesNeverChange : Prop :=
  ∀ (k : Nat) (s t : State), Host.Core.run Sys2Proof.core k s = .next t →
    t.params = s.params ∧ ∀ a, inRegions s.params.codeRegion a = true → t.mem.read a = s.mem.read a

/-- R49, R50 over whole runs: a byte that holds a value goes on holding one, and a byte that comes to hold one lies in
`MEM_MAP`. -/
def Obligations.ValuesPersistInMappedMemory : Prop :=
  ∀ (k : Nat) (s t : State), Host.Core.run Sys2Proof.core k s = .next t →
    (∀ a, s.mem.read a ≠ none → t.mem.read a ≠ none) ∧
    (∀ a, s.mem.read a = none → t.mem.read a ≠ none → inRegions s.params.memMap a = true)

/-- R14: an instruction writes no register but its destination (MOVZ and MOVNZ only when the condition holds) and its
outcome depends on no register but its sources: two states that agree on those and on everything else but registers
stop alike, or both go on, and then agree again, the destination included (for MOVZ and MOVNZ, or keep it both). Nothing
is said of `pc` in a state with `halted` (R28). -/
def Obligations.RegistersReadAndWritten : Prop :=
  (∀ (i : Instr) (s t : State), exec i s = .next t → ∀ r, dest i ≠ some r → t.readReg r = s.readReg r) ∧
  (∀ (s t : State) (d a b : Reg),
    (s.readReg a ≠ 0#32 → exec (.movz d a b) s = .next t → t.readReg d = s.readReg d) ∧
    (s.readReg a = 0#32 → exec (.movnz d a b) s = .next t → t.readReg d = s.readReg d)) ∧
  (∀ (i : Instr) (s s' : State), AgreeOn (sources i) s s' →
    (∀ f, exec i s = .fault f → exec i s' = .fault f) ∧ (∀ r, exec i s = .refused r → exec i s' = .refused r) ∧
    ∀ t, exec i s = .next t → ∃ t', exec i s' = .next t' ∧ AgreeAfter t t' ∧
      ∀ r, dest i = some r → t.readReg r = t'.readReg r ∨
        ((∃ a b, i = .movz r a b ∨ i = .movnz r a b) ∧ t.readReg r = s.readReg r ∧ t'.readReg r = s'.readReg r))

/-- R14, R18, R39, R101: memory changes only by a store, `halted` only by HALT, `pc` becomes something else than `A + 4`
only by a transfer, and the parameters never change. -/
def Obligations.WhatOnlySomeInstructionsChange : Prop :=
  ∀ (i : Instr) (s t : State), exec i s = .next t →
    (storeBytes i = 0 → SameBytesBut [] s t) ∧ (i ≠ .halt → t.halted = s.halted) ∧
    (i ≠ .halt → transfersControl i = false → t.pc = s.pc + 4#32) ∧ t.params = s.params

/-- R231, R233: which instruction can stop, and with which name. -/
def Obligations.WhichInstructionsStop : Prop :=
  (∀ (i : Instr) (s : State) (f : Fault), exec i s = .fault f →
    (transfersControl i = true ∧ ∃ x, f = .misalignedTarget x ∧ x.toNat % 4 ≠ 0) ∨
    (∃ x n, f = .misalignedAccess x n ∧ 1 < n ∧ (n = loadBytes i ∨ n = storeBytes i)) ∨
    (∃ x n, f = .accessFault x n ∧ 0 < n ∧ (n = loadBytes i ∨ n = storeBytes i)) ∨
    (∃ x n, f = .uninitialisedRead x n ∧ 0 < n ∧ n = loadBytes i)) ∧
  (∀ (i : Instr) (s : State) (r : Refusal), exec i s = .refused r →
    (∃ x n, r = .codeWriteRefused x n ∧ 0 < n ∧ n = storeBytes i) ∨
    (i = .callReg 3 ∧ ∃ w, r = .ambiguousCallR3 w))

/-- R4: the opcode map and `STRICT_UNUSED` change nothing of what an instruction does; `pc` is compared only where the
machine has not halted (R28). -/
def Obligations.OpcodeParametersDoNotChangeResults : Prop :=
  ∀ (i : Instr) (s t : State) (m : OpcodeMap) (strict : Bool), exec i s = .next t →
    ∃ t', exec i { s with params := { s.params with opcodeMap := m, strictUnused := strict } } = .next t' ∧
      (∀ r, t'.readReg r = t.readReg r) ∧
      AgreeAfter { t with params := { t.params with opcodeMap := m, strictUnused := strict } } t'
end

