-- ==== Sys2Proof/Laws/Decode.lean ====
section
/-! SUPPORT. The opcode maps as lookups, the fields of an encoded word, and what the decoder can answer. -/

namespace Sys2Proof

theorem mem_allOps (op : Op) : op ∈ allOps := by cases op <;> decide

/-- No opcode stands for two operations. -/
theorem opcode_injective (m : OpcodeMap) {a b : Op} (h : opcode m a = opcode m b) : a = b := by
  cases m <;> cases a <;> cases b <;> first | rfl | exact absurd h (by decide)

/-- The lookup finds the operation an opcode was made from. -/
@[simp] theorem opOfOpcode_opcode (m : OpcodeMap) (op : Op) : opOfOpcode m (opcode m op) = some op := by
  cases m <;> cases op <;> rfl

/-- What the lookup finds has that opcode. -/
theorem opcode_of_opOfOpcode {m : OpcodeMap} {b : BitVec 8} {op : Op} (h : opOfOpcode m b = some op) :
    opcode m op = b := by
  simpa using List.find?_some h

/-- The field OPC of an encoded instruction (R61). -/
@[simp] theorem opcField_encode (m : OpcodeMap) (i : Instr) : opcField (encode m i) = opcode m (opOf i) := by
  apply BitVec.eq_of_getLsbD_eq
  intro k hk
  simp only [opcField, encode, BitVec.getLsbD_extractLsb', BitVec.getLsbD_append]
  simp [hk]

/-- A register field holds the register's number, and names it. -/
@[simp] theorem regBits_toFin (r : Reg) : (regBits r).toFin = r := rfl

/-- `instrOfFields` gives an instruction of its operation. -/
@[simp] theorem opOf_instrOfFields (op : Op) (w : Word) : opOf (instrOfFields op w) = op := by cases op <;> rfl

/-- What the decoder can answer, with every check it makes (R90). -/
theorem decodeWord_cases (m : OpcodeMap) (strict : Bool) (w : Word) :
    (opOfOpcode m (opcField w) = none ∧ decodeWord m strict w = .error .unassignedOpcode) ∨
    (∃ op, opOfOpcode m (opcField w) = some op ∧ strict = true ∧ w &&& unusedMask (formatOf op) ≠ 0#32 ∧
      decodeWord m strict w = .error .unusedNotZero) ∨
    (∃ op, opOfOpcode m (opcField w) = some op ∧ (strict = true → w &&& unusedMask (formatOf op) = 0#32) ∧
      decodeWord m strict w = .ok (instrOfFields op w)) := by
  cases h : opOfOpcode m (opcField w) with
  | none => simp [decodeWord, h]
  | some op =>
    by_cases hz : w &&& unusedMask (formatOf op) = 0#32 <;> cases strict <;> simp [decodeWord, h, hz]

/-- If the decoder answers an instruction, these checks passed. -/
theorem decodeWord_ok {m : OpcodeMap} {strict : Bool} {w : Word} {i : Instr} (h : decodeWord m strict w = .ok i) :
    opcode m (opOf i) = opcField w ∧ (strict = true → w &&& unusedMask (formatOf (opOf i)) = 0#32) ∧
      i = instrOfFields (opOf i) w := by
  rcases decodeWord_cases m strict w with ⟨_, e⟩ | ⟨_, _, _, _, e⟩ | ⟨op, h1, h2, e⟩ <;> rw [e] at h
  · cases h
  · cases h
  · cases h; simpa using ⟨opcode_of_opOfOpcode h1, h2⟩

end Sys2Proof
end

