-- ==== Sys2Proof/Laws/State.lean ====
section
/-! SUPPORT. The small lemmas of `State`: one per field per update, and a register read after a register write. -/

namespace Sys2Proof.Machine

@[simp] theorem writeReg_pc (s : State) (i : Reg) (v : Word) : (s.writeReg i v).pc = s.pc := rfl
@[simp] theorem writeReg_mem (s : State) (i : Reg) (v : Word) : (s.writeReg i v).mem = s.mem := rfl
@[simp] theorem writeReg_halted (s : State) (i : Reg) (v : Word) : (s.writeReg i v).halted = s.halted := rfl
@[simp] theorem writeReg_params (s : State) (i : Reg) (v : Word) : (s.writeReg i v).params = s.params := rfl

@[simp] theorem setPc_pc (s : State) (a : Word) : (s.setPc a).pc = a := rfl
@[simp] theorem setPc_regs (s : State) (a : Word) : (s.setPc a).regs = s.regs := rfl
@[simp] theorem setPc_mem (s : State) (a : Word) : (s.setPc a).mem = s.mem := rfl
@[simp] theorem setPc_halted (s : State) (a : Word) : (s.setPc a).halted = s.halted := rfl
@[simp] theorem setPc_params (s : State) (a : Word) : (s.setPc a).params = s.params := rfl
@[simp] theorem setPc_readReg (s : State) (a : Word) (r : Reg) : (s.setPc a).readReg r = s.readReg r := rfl

@[simp] theorem advance_pc (s : State) : s.advance.pc = s.pc + 4#32 := rfl
@[simp] theorem advance_regs (s : State) : s.advance.regs = s.regs := rfl
@[simp] theorem advance_mem (s : State) : s.advance.mem = s.mem := rfl
@[simp] theorem advance_halted (s : State) : s.advance.halted = s.halted := rfl
@[simp] theorem advance_params (s : State) : s.advance.params = s.params := rfl
@[simp] theorem advance_readReg (s : State) (r : Reg) : s.advance.readReg r = s.readReg r := rfl

@[simp] theorem withMem_readReg (s : State) (m : Memory) (r : Reg) : ({ s with mem := m } : State).readReg r = s.readReg r :=
  rfl
@[simp] theorem withHalted_readReg (s : State) (b : Bool) (r : Reg) :
    ({ s with halted := b } : State).readReg r = s.readReg r := rfl
@[simp] theorem withParams_readReg (s : State) (p : Params) (r : Reg) :
    ({ s with params := p } : State).readReg r = s.readReg r := rfl

/-- A register read after it was written gives the value written: no register is hard-wired (R12). -/
@[simp] theorem readReg_writeReg_same (s : State) (i : Reg) (v : Word) : (s.writeReg i v).readReg i = v := by
  simp [State.readReg, State.writeReg]

/-- A write leaves every other register alone. -/
theorem readReg_writeReg_of_ne (s : State) {i r : Reg} (v : Word) (h : r ≠ i) :
    (s.writeReg i v).readReg r = s.readReg r := by
  have : i.val ≠ r.val := fun e => h (Fin.ext e.symm)
  simp [State.readReg, State.writeReg, Vector.getElem_set_ne, this]

/-- The two cases at once. -/
theorem readReg_writeReg (s : State) (i r : Reg) (v : Word) :
    (s.writeReg i v).readReg r = if r = i then v else s.readReg r := by
  split
  · next h => subst h; simp
  · next h => exact readReg_writeReg_of_ne s v h

/-- Two states with the same fields are one state; registers are compared through `readReg`. -/
theorem State.ext_readReg {s t : State} (hr : ∀ r, s.readReg r = t.readReg r) (hp : s.pc = t.pc) (hm : s.mem = t.mem)
    (hh : s.halted = t.halted) (hq : s.params = t.params) : s = t := by
  have : s.regs = t.regs := Vector.ext fun i hi => hr ⟨i, hi⟩
  cases s; cases t; simp_all

end Sys2Proof.Machine
end

