-- ==== Sys2Proof/Laws/Memory.lean ====
section
/-! SUPPORT. Memory: read after write, the canonical form, and what each shared memory operation can do. -/

namespace Sys2Proof.Machine

/-! ### One byte -/

@[simp] theorem Memory.unlisted_eq : Memory.unlisted = none := rfl
@[simp] theorem Memory.read_nil (a : Nat) : Memory.read [] a = none := rfl

/-- A byte read after it was written gives the value written. -/
@[simp] theorem Memory.read_write_same (m : Memory) (a : Nat) (v : Byte) : (Memory.write m a v).read a = some v := by
  induction m with
  | nil => simp [Memory.write, Memory.read]
  | cons c rest ih =>
    unfold Memory.write
    split
    · simp [Memory.read]
    · split
      · simp [Memory.read]
      · next h => simp [Memory.read, ih, Ne.symm h]

/-- A write leaves every other byte alone. -/
theorem Memory.read_write_of_ne (m : Memory) {a b : Nat} (v : Byte) (h : b ≠ a) :
    (Memory.write m a v).read b = m.read b := by
  induction m with
  | nil => simp [Memory.write, Memory.read, Memory.unlisted, Ne.symm h]
  | cons c rest ih =>
    unfold Memory.write
    split
    · simp [Memory.read, Ne.symm h]
    · split
      · next e => subst e; simp [Memory.read, Ne.symm h]
      · simp [Memory.read, ih]

/-- The two cases at once. -/
theorem Memory.read_write (m : Memory) (a b : Nat) (v : Byte) :
    (Memory.write m a v).read b = if b = a then some v else m.read b := by
  split
  · next h => subst h; simp
  · next h => exact Memory.read_write_of_ne m v h

/-- The entries of a memory after a write: the new one, or old ones. -/
theorem Memory.mem_write {m : Memory} {a : Nat} {v : Byte} {c : Host.Cell} (h : c ∈ Memory.write m a v) :
    c = (a, v) ∨ c ∈ m := by
  induction m with
  | nil => simp [Memory.write] at h; exact .inl h
  | cons d rest ih =>
    unfold Memory.write at h
    split at h
    · simpa using h
    · split at h
      · simp at h; rcases h with h | h <;> simp [h]
      · simp only [List.mem_cons] at h ⊢
        rcases h with h | h
        · exact .inr (.inl h)
        · exact (ih h).imp_right .inr

/-- A write inside the address space keeps the canonical form. -/
theorem Memory.write_wf {m : Memory} {a : Nat} (v : Byte) (hm : m.wf) (ha : a < 4294967296) :
    (Memory.write m a v).wf := by
  refine ⟨?_, fun c hc => ?_⟩
  · induction m with
    | nil => simp [Memory.write]
    | cons d rest ih =>
      have ⟨hd, hr⟩ := List.pairwise_cons.mp hm.1
      have hrest : Memory.wf rest := ⟨hr, fun c hc => hm.2 c (List.mem_cons_of_mem _ hc)⟩
      unfold Memory.write
      split
      · next hlt =>
        refine List.pairwise_cons.mpr ⟨fun c hc => ?_, hm.1⟩
        rcases List.mem_cons.mp hc with rfl | hc
        · exact hlt
        · exact lt_trans hlt (hd c hc)
      · split
        · next _ heq => subst heq; exact List.pairwise_cons.mpr ⟨hd, hr⟩
        · next hlt hne =>
          refine List.pairwise_cons.mpr ⟨fun c hc => ?_, ih hrest⟩
          rcases Memory.mem_write hc with rfl | hc
          · exact show d.1 < a by omega
          · exact hd c hc
  · rcases Memory.mem_write hc with rfl | hc
    · exact ha
    · exact hm.2 c hc

/-- A byte that holds a value is an entry. -/
theorem Memory.mem_of_read {m : Memory} {a : Nat} {b : Byte} (h : m.read a = some b) : (a, b) ∈ m := by
  induction m with
  | nil => simp at h
  | cons c rest ih =>
    rw [Memory.read] at h
    split at h
    · next e => subst e; simp at h; subst h; simp
    · exact List.mem_cons_of_mem _ (ih h)

/-- In canonical form, an entry is what its address reads as. -/
theorem Memory.read_of_mem {m : Memory} {c : Host.Cell} (hm : m.wf) (h : c ∈ m) : m.read c.1 = some c.2 := by
  induction m with
  | nil => simp at h
  | cons d rest ih =>
    have ⟨hd, hr⟩ := List.pairwise_cons.mp hm.1
    rw [Memory.read]
    rcases List.mem_cons.mp h with rfl | h
    · simp
    · have := hd c h
      rw [if_neg (by omega)]
      exact ih ⟨hr, fun c hc => hm.2 c (List.mem_cons_of_mem _ hc)⟩ h

/-! ### The addresses of an access -/

theorem accessAddrs_length (a : Word) (n : Nat) : (accessAddrs a n).length = n := by
  induction n generalizing a with
  | zero => rfl
  | succ n ih => simp [accessAddrs, ih]

/-- Every address of an access lies in the address space. -/
theorem accessAddrs_lt {a : Word} {n b : Nat} (h : b ∈ accessAddrs a n) : b < 4294967296 := by
  induction n generalizing a with
  | zero => simp [accessAddrs] at h
  | succ n ih =>
    rcases List.mem_cons.mp h with rfl | h
    · exact a.isLt
    · exact ih h

/-- The addresses of an access are `a`, `a + 1`, ... modulo 2^32. -/
theorem mem_accessAddrs {a : Word} {n b : Nat} : b ∈ accessAddrs a n ↔ ∃ k < n, b = (a + BitVec.ofNat 32 k).toNat := by
  induction n generalizing a with
  | zero => simp [accessAddrs]
  | succ n ih =>
    simp only [accessAddrs, List.mem_cons, ih]
    constructor
    · rintro (rfl | ⟨k, hk, rfl⟩)
      · exact ⟨0, by omega, by simp⟩
      · refine ⟨k + 1, by omega, ?_⟩
        congr 1
        rw [BitVec.add_assoc]; congr 1
        apply BitVec.eq_of_toNat_eq
        simp [Nat.add_comm]
    · rintro ⟨k, hk, rfl⟩
      cases k with
      | zero => simp
      | succ k =>
        refine .inr ⟨k, by omega, ?_⟩
        congr 1
        rw [BitVec.add_assoc]; congr 1
        apply BitVec.eq_of_toNat_eq
        simp [Nat.add_comm]

/-! ### Several bytes -/

/-- A write of several bytes leaves the bytes at other addresses alone. -/
theorem Memory.read_writeAll_of_notMem {as : List Nat} {bs : List Byte} {b : Nat} (m : Memory) (h : b ∉ as) :
    (Memory.writeAll m as bs).read b = m.read b := by
  induction as generalizing m bs with
  | nil => simp [Memory.writeAll]
  | cons a as ih =>
    cases bs with
    | nil => simp [Memory.writeAll]
    | cons v bs =>
      simp only [List.mem_cons, not_or] at h
      rw [Memory.writeAll, ih _ h.2, Memory.read_write_of_ne _ _ h.1]

/-- A write of several bytes inside the address space keeps the canonical form. -/
theorem Memory.writeAll_wf {as : List Nat} {bs : List Byte} {m : Memory} (hm : m.wf)
    (ha : ∀ a ∈ as, a < 4294967296) : (Memory.writeAll m as bs).wf := by
  induction as generalizing m bs with
  | nil => simpa [Memory.writeAll] using hm
  | cons a as ih =>
    cases bs with
    | nil => simpa [Memory.writeAll] using hm
    | cons v bs =>
      rw [Memory.writeAll]
      exact ih (Memory.write_wf v hm (ha a (by simp))) fun b hb => ha b (by simp [hb])

/-- The entries after a write of several bytes: at the written addresses, or old ones. -/
theorem Memory.mem_writeAll {as : List Nat} {bs : List Byte} {m : Memory} {c : Host.Cell}
    (h : c ∈ Memory.writeAll m as bs) : c.1 ∈ as ∨ c ∈ m := by
  induction as generalizing m bs with
  | nil => exact .inr (by simpa [Memory.writeAll] using h)
  | cons a as ih =>
    cases bs with
    | nil => exact .inr (by simpa [Memory.writeAll] using h)
    | cons v bs =>
      rw [Memory.writeAll] at h
      rcases ih h with h | h
      · exact .inl (by simp [h])
      · rcases Memory.mem_write h with rfl | h
        · exact .inl (by simp)
        · exact .inr h

/-- Bytes read after they were written, at distinct addresses, are the bytes written. -/
theorem Memory.readAll_writeAll {as : List Nat} {bs : List Byte} (m : Memory) (hn : as.Nodup)
    (hl : as.length = bs.length) : Memory.readAll (Memory.writeAll m as bs) as = some bs := by
  induction as generalizing m bs with
  | nil => cases bs <;> simp_all [Memory.readAll]
  | cons a as ih =>
    cases bs with
    | nil => simp at hl
    | cons v bs =>
      have ⟨ha, hn⟩ := List.nodup_cons.mp hn
      rw [Memory.writeAll, Memory.readAll, ih _ hn (by simpa using hl), Memory.read_writeAll_of_notMem _ ha]
      simp

/-- A read of several bytes depends on those bytes only. -/
theorem Memory.readAll_congr {as : List Nat} {m m' : Memory} (h : ∀ a ∈ as, m'.read a = m.read a) :
    Memory.readAll m' as = Memory.readAll m as := by
  induction as with
  | nil => rfl
  | cons a as ih =>
    rw [Memory.readAll, Memory.readAll, h a (by simp), ih fun b hb => h b (by simp [hb])]

/-! ### The shared operations: what each can do -/

/-- What `memRead` can answer, with every check it makes. -/
theorem memRead_cases (s : State) (a : Word) (n : Nat) :
    (accessAligned a n = false ∧ memRead s a n = .error (.misalignedAccess a n)) ∨
    (accessAligned a n = true ∧ (accessAddrs a n).all (inRegions s.params.memMap) = false ∧
      memRead s a n = .error (.accessFault a n)) ∨
    (accessAligned a n = true ∧ (accessAddrs a n).all (inRegions s.params.memMap) = true ∧
      s.mem.readAll (accessAddrs a n) = none ∧ memRead s a n = .error (.uninitialisedRead a n)) ∨
    (accessAligned a n = true ∧ (accessAddrs a n).all (inRegions s.params.memMap) = true ∧
      ∃ bs, s.mem.readAll (accessAddrs a n) = some bs ∧ memRead s a n = .ok (bigEndian bs)) := by
  cases h1 : accessAligned a n <;> cases h2 : (accessAddrs a n).all (inRegions s.params.memMap) <;>
    cases h3 : s.mem.readAll (accessAddrs a n) <;> simp [memRead, h1, h2, h3]

/-- If `memRead` answers a value, these checks passed. -/
theorem memRead_ok {s : State} {a : Word} {n : Nat} {v : Word} (h : memRead s a n = .ok v) :
    accessAligned a n = true ∧ (accessAddrs a n).all (inRegions s.params.memMap) = true ∧
      ∃ bs, s.mem.readAll (accessAddrs a n) = some bs ∧ v = bigEndian bs := by
  rcases memRead_cases s a n with ⟨_, e⟩ | ⟨_, _, e⟩ | ⟨_, _, _, e⟩ | ⟨h1, h2, bs, h3, e⟩ <;> rw [e] at h
  · cases h
  · cases h
  · cases h
  · cases h; exact ⟨h1, h2, bs, h3, rfl⟩

/-- What `memWrite` can answer, with every check it makes. -/
theorem memWrite_cases (s : State) (a : Word) (n : Nat) (v : Word) :
    (accessAligned a n = false ∧ memWrite s a n v = .fault (.misalignedAccess a n)) ∨
    (accessAligned a n = true ∧ (accessAddrs a n).all (inRegions s.params.memMap) = false ∧
      memWrite s a n v = .fault (.accessFault a n)) ∨
    (accessAligned a n = true ∧ (accessAddrs a n).all (inRegions s.params.memMap) = true ∧
      (accessAddrs a n).any (inRegions s.params.codeRegion) = true ∧
      memWrite s a n v = .refused (.codeWriteRefused a n)) ∨
    (accessAligned a n = true ∧ (accessAddrs a n).all (inRegions s.params.memMap) = true ∧
      (accessAddrs a n).any (inRegions s.params.codeRegion) = false ∧
      memWrite s a n v = .next { s with mem := s.mem.writeAll (accessAddrs a n) (toBigEndian n v) }) := by
  cases h1 : accessAligned a n <;> cases h2 : (accessAddrs a n).all (inRegions s.params.memMap) <;>
    cases h3 : (accessAddrs a n).any (inRegions s.params.codeRegion) <;> simp [memWrite, h1, h2, h3]

/-- If `memWrite` answers a state, these checks passed and only those bytes were written. -/
theorem memWrite_next {s t : State} {a : Word} {n : Nat} {v : Word} (h : memWrite s a n v = .next t) :
    accessAligned a n = true ∧ (accessAddrs a n).all (inRegions s.params.memMap) = true ∧
      (accessAddrs a n).any (inRegions s.params.codeRegion) = false ∧
      t = { s with mem := s.mem.writeAll (accessAddrs a n) (toBigEndian n v) } := by
  rcases memWrite_cases s a n v with ⟨_, e⟩ | ⟨_, _, e⟩ | ⟨_, _, _, e⟩ | ⟨h1, h2, h3, e⟩ <;> rw [e] at h
  · cases h
  · cases h
  · cases h
  · cases h; exact ⟨h1, h2, h3, rfl⟩

/-- The memory of the reset state is in canonical form. -/
theorem reset_mem_wf : State.reset.mem.wf := by decide

/-- The memory after `memWrite` is in canonical form. -/
theorem memWrite_wf {s t : State} {a : Word} {n : Nat} {v : Word} (h : memWrite s a n v = .next t) (hm : s.mem.wf) :
    t.mem.wf := by
  obtain ⟨_, _, _, rfl⟩ := memWrite_next h
  exact Memory.writeAll_wf hm fun _ => accessAddrs_lt

/-- What `transfer` can answer. -/
theorem transfer_cases (s : State) (target : Word) :
    (targetAligned target = true ∧ transfer s target = .next (s.setPc target)) ∨
    (targetAligned target = false ∧ transfer s target = .fault (.misalignedTarget target)) := by
  cases h : targetAligned target <;> simp [transfer, raise, h]

/-- If `transfer` answers a state, the target was aligned and is the new `pc`. -/
theorem transfer_next {s t : State} {target : Word} (h : transfer s target = .next t) :
    targetAligned target = true ∧ t = s.setPc target := by
  rcases transfer_cases s target with ⟨h1, e⟩ | ⟨_, e⟩ <;> rw [e] at h
  · cases h; exact ⟨h1, rfl⟩
  · cases h

/-- The low two bits of a target are zero exactly when it is a multiple of 4. -/
theorem targetAligned_iff (t : Word) : targetAligned t = true ↔ t.toNat % 4 = 0 := by
  simp only [targetAligned, beq_iff_eq, ← BitVec.toNat_inj, BitVec.extractLsb'_toNat]
  simp

end Sys2Proof.Machine
end

