-- ==== Sys2Proof/Laws/Launch.lean ====
section
/-! SUPPORT. The launch: its fields, its relation to the reset state, and what its memory image lists. -/

namespace Sys2Proof.Machine

/-- The reset state is the launch with every parameter at its default. -/
theorem reset_eq_launch : State.reset = State.launch {} := rfl

@[simp] theorem launch_pc (l : LaunchParams) : (State.launch l).pc = l.resetPc := rfl
@[simp] theorem launch_mem (l : LaunchParams) : (State.launch l).mem = imageOf l.memInit := rfl
@[simp] theorem launch_halted (l : LaunchParams) : (State.launch l).halted = false := rfl
@[simp] theorem launch_params (l : LaunchParams) : (State.launch l).params = stepParams l := rfl
@[simp] theorem launch_readReg (l : LaunchParams) (r : Reg) : (State.launch l).readReg r = 0#32 := by
  simp [State.launch, State.readReg]

/-- Bytes stored inside the address space keep the canonical form. -/
theorem placeBytes_wf {cs : List Host.Cell} {m : Memory} (hm : m.wf) (h : ∀ c ∈ cs, c.1 < 4294967296) :
    (placeBytes m cs).wf := by
  induction cs generalizing m with
  | nil => exact hm
  | cons c cs ih =>
    exact ih (Memory.write_wf c.2 hm (h c (List.mem_cons_self ..))) fun d hd => h d (List.mem_cons_of_mem _ hd)

/-- Words stored keep the canonical form. -/
theorem placeWords_wf {ws : List (Word × Word)} {m : Memory} (hm : m.wf) : (placeWords m ws).wf := by
  induction ws generalizing m with
  | nil => exact hm
  | cons p ws ih => exact ih (Memory.writeAll_wf hm fun _ => accessAddrs_lt)

/-- The image of a proper `MEM_INIT` is in canonical form. -/
theorem imageOf_wf {i : MemInit} (h : ∀ c ∈ i.data, c.1 < 4294967296) : (imageOf i).wf :=
  placeWords_wf (placeBytes_wf ⟨List.Pairwise.nil, nofun⟩ h)

end Sys2Proof.Machine
end

