-- ==== Sys2Proof/Laws/Meaning.lean ====
section
/-! SUPPORT. What each shared form of a meaning can do, said once, and the inversion lemmas of `exec` and `step`. -/

namespace Sys2Proof.Machine

/-- The three-register form always answers the next state. -/
theorem alu_next (f : Word → Word → Word) (d a b : Reg) (s : State) :
    alu f d a b s = .next (s.writeReg d (f (s.readReg a) (s.readReg b))).advance := rfl

/-- The conditional move always answers the next state. -/
theorem condMove_cases (take : Bool) (d b : Reg) (s : State) :
    (take = true ∧ condMove take d b s = .next (s.writeReg d (s.readReg b)).advance) ∨
    (take = false ∧ condMove take d b s = .next s.advance) := by
  cases take <;> simp [condMove]

/-- What a load can answer: the fault of its read, or the loaded value in DST. -/
theorem load_cases (n : Nat) (ext : Word → Word) (d a : Reg) (i : BitVec 14) (s : State) :
    (∃ f, memRead s (effAddr s a i) n = .error f ∧ load n ext d a i s = .fault f) ∨
    (∃ v, memRead s (effAddr s a i) n = .ok v ∧ load n ext d a i s = .next (s.writeReg d (ext v)).advance) := by
  cases h : memRead s (effAddr s a i) n <;> simp [load, raise, h]

/-- What a store can answer: the fault or refusal of its write, or the written memory. -/
theorem store_cases (n : Nat) (v a : Reg) (i : BitVec 14) (s : State) :
    (∃ f, memWrite s (effAddr s a i) n (s.readReg v) = .fault f ∧ store n v a i s = .fault f) ∨
    (∃ r, memWrite s (effAddr s a i) n (s.readReg v) = .refused r ∧ store n v a i s = .refused r) ∨
    (∃ t, memWrite s (effAddr s a i) n (s.readReg v) = .next t ∧ store n v a i s = .next t.advance) := by
  cases h : memWrite s (effAddr s a i) n (s.readReg v) <;> simp [store, raise, h]

/-- What a conditional jump can answer. -/
theorem condJump_cases (taken : Bool) (r : BitVec 14) (s : State) :
    (taken = true ∧ condJump taken r s = transfer s (relTarget s r)) ∨
    (taken = false ∧ condJump taken r s = .next s.advance) := by
  cases taken <;> simp [condJump]

/-- What CALL SRC can answer. -/
theorem execCallReg_cases (a : Reg) (s : State) :
    (a = linkReg ∧ execCallReg a s = .refused (.ambiguousCallR3 (wordAtPc s (.callReg a)))) ∨
    (a ≠ linkReg ∧ execCallReg a s = transfer (s.writeReg linkReg (s.pc + 4#32)) (s.readReg a)) := by
  by_cases h : a = linkReg <;> simp [execCallReg, h]

/-- If a load answers a state, it is the old one with the extended value in DST. -/
theorem load_next {n : Nat} {ext : Word → Word} {d a : Reg} {i : BitVec 14} {s t : State}
    (h : load n ext d a i s = .next t) : ∃ v, memRead s (effAddr s a i) n = .ok v ∧ t = (s.writeReg d (ext v)).advance := by
  rcases load_cases n ext d a i s with ⟨f, _, e⟩ | ⟨v, hv, e⟩ <;> rw [e] at h
  · cases h
  · cases h; exact ⟨v, hv, rfl⟩

/-- If a store answers a state, it is the old one with those bytes written. -/
theorem store_next {n : Nat} {v a : Reg} {i : BitVec 14} {s t : State} (h : store n v a i s = .next t) :
    accessAligned (effAddr s a i) n = true ∧ (accessAddrs (effAddr s a i) n).all (inRegions s.params.memMap) = true ∧
      (accessAddrs (effAddr s a i) n).any (inRegions s.params.codeRegion) = false ∧
      t = ({ s with mem := s.mem.writeAll (accessAddrs (effAddr s a i) n) (toBigEndian n (s.readReg v)) } :
        State).advance := by
  rcases store_cases n v a i s with ⟨f, _, e⟩ | ⟨r, _, e⟩ | ⟨u, hu, e⟩ <;> rw [e] at h
  · cases h
  · cases h
  · cases h
    obtain ⟨h1, h2, h3, rfl⟩ := memWrite_next hu
    exact ⟨h1, h2, h3, rfl⟩

/-- What an instruction that answers a next state has done: one of six shapes. -/
inductive Effect (i : Instr) (s : State) : State → Prop where
  /-- Only the program counter moved on. -/
  | advanced (hi : storeBytes i = 0) (hn : i ≠ .halt) : Effect i s s.advance
  /-- DST was written. -/
  | wrote (d : Reg) (v : Word) (hd : dest i = some d) (ht : transfersControl i = false) (hi : storeBytes i = 0)
      (hn : i ≠ .halt) : Effect i s (s.writeReg d v).advance
  /-- Bytes were stored, at mapped addresses outside the code region. -/
  | stored (a : Word) (v : Word) (hd : dest i = none) (ht : transfersControl i = false) (hi : storeBytes i ≠ 0)
      (hm : (accessAddrs a (storeBytes i)).all (inRegions s.params.memMap) = true)
      (hc : (accessAddrs a (storeBytes i)).any (inRegions s.params.codeRegion) = false) :
      Effect i s ({ s with mem := s.mem.writeAll (accessAddrs a (storeBytes i)) (toBigEndian (storeBytes i) v) } :
        State).advance
  /-- Control went to an aligned target. -/
  | jumped (a : Word) (ht : transfersControl i = true) (ha : targetAligned a = true) (hi : storeBytes i = 0)
      (hn : i ≠ .halt) : Effect i s (s.setPc a)
  /-- Control went to an aligned target, with the return address in `r3`. -/
  | called (a : Word) (hd : dest i = some linkReg) (ht : transfersControl i = true) (ha : targetAligned a = true)
      (hi : storeBytes i = 0) (hn : i ≠ .halt) : Effect i s ((s.writeReg linkReg (s.pc + 4#32)).setPc a)
  /-- HALT. -/
  | halts (hi : i = .halt) : Effect i s { s.advance with halted := true }

theorem effect_of_load {i : Instr} {n : Nat} {ext : Word → Word} {d a : Reg} {im : BitVec 14} {s t : State}
    (hd : dest i = some d) (ht : transfersControl i = false) (hi : storeBytes i = 0) (hn : i ≠ .halt)
    (h : load n ext d a im s = .next t) : Effect i s t := by
  obtain ⟨v, _, rfl⟩ := load_next h
  exact .wrote d _ hd ht hi hn

theorem effect_of_store {i : Instr} {v a : Reg} {im : BitVec 14} {s t : State} (hd : dest i = none)
    (ht : transfersControl i = false) (hi : storeBytes i ≠ 0) (h : store (storeBytes i) v a im s = .next t) :
    Effect i s t := by
  obtain ⟨_, h2, h3, rfl⟩ := store_next h
  exact .stored _ _ hd ht hi h2 h3

theorem effect_of_condMove {i : Instr} {take : Bool} {d b : Reg} {s t : State} (hd : dest i = some d)
    (ht : transfersControl i = false) (hi : storeBytes i = 0) (hn : i ≠ .halt) (h : condMove take d b s = .next t) :
    Effect i s t := by
  rcases condMove_cases take d b s with ⟨_, e⟩ | ⟨_, e⟩ <;> rw [e] at h <;> cases h
  · exact .wrote d _ hd ht hi hn
  · exact .advanced hi hn

theorem effect_of_condJump {i : Instr} {taken : Bool} {r : BitVec 14} {s t : State} (ht : transfersControl i = true)
    (hi : storeBytes i = 0) (hn : i ≠ .halt) (h : condJump taken r s = .next t) : Effect i s t := by
  rcases condJump_cases taken r s with ⟨_, e⟩ | ⟨_, e⟩ <;> rw [e] at h
  · obtain ⟨ha, rfl⟩ := transfer_next h
    exact .jumped _ ht ha hi hn
  · cases h; exact .advanced hi hn

/-- The inversion lemma of `exec`. -/
theorem exec_effect {i : Instr} {s t : State} (h : exec i s = .next t) : Effect i s t := by
  cases i with
  | nop => cases h; exact .advanced rfl nofun
  | halt => cases h; exact .halts rfl
  | ld d a im | ldhs d a im | ldhu d a im | ldbs d a im | ldbu d a im => exact effect_of_load rfl rfl rfl nofun h
  | st v a im | sth v a im | stb v a im => exact effect_of_store rfl rfl nofun h
  | movz d a b | movnz d a b => exact effect_of_condMove rfl rfl rfl nofun h
  | jumpz a r | jumpnz a r => exact effect_of_condJump rfl rfl nofun h
  | jumpAbs a | jumpReg a =>
    obtain ⟨ha, rfl⟩ := transfer_next h
    exact .jumped _ rfl ha rfl nofun
  | callAbs a =>
    obtain ⟨ha, rfl⟩ := transfer_next h
    exact .called _ rfl rfl ha rfl nofun
  | callReg a =>
    rcases execCallReg_cases a s with ⟨_, e⟩ | ⟨_, e⟩
    · exact absurd (e.symm.trans h) nofun
    · obtain ⟨ha, rfl⟩ := transfer_next (e.symm.trans h)
      exact .called _ rfl rfl ha rfl nofun
  | _ => cases h; exact .wrote _ _ rfl rfl rfl nofun

/-- The inversion lemma of `step`: a step that goes on fetched, decoded and executed. -/
theorem step_next {s t : State} (h : step s = .next t) :
    s.halted = false ∧ ∃ bits i, fetch s = .ok bits ∧
      decodeWord s.params.opcodeMap s.params.strictUnused bits = .ok i ∧ exec i s = .next t := by
  unfold step at h
  cases hh : s.halted with
  | true => simp [hh, raise] at h
  | false =>
    cases hf : fetch s with
    | error f => simp [hh, hf, raise] at h
    | ok bits =>
      cases hd : decodeWord s.params.opcodeMap s.params.strictUnused bits with
      | error e => simp [hh, hf, hd, raise] at h
      | ok i => exact ⟨rfl, bits, i, rfl, hd, by simpa [hh, hf, hd] using h⟩

end Sys2Proof.Machine
end

