-- ==== Sys2Proof/Laws/PerInstr.lean ====
section
/-! SUPPORT. Facts about every instruction as syntax, one lemma per constructor, and the bits of an encoded word. -/

namespace Sys2Proof.Laws

/-- The UNUSED fields of an encoded instruction are zeros, under either opcode map (spec/30_encoding.md R77: "An
assembler always writes zeros"). -/
def UnusedZero.Statement (i : Instr) : Prop := ∀ m, encode m i &&& unusedMask (formatOf (opOf i)) = 0#32

/-- One bit of an encoded instruction: the operand bits below, the opcode above. -/
theorem getLsbD_encode (m : OpcodeMap) (i : Instr) (k : Nat) :
    (encode m i).getLsbD k = if k < 24 then (operandBits i).getLsbD k else (opcode m (opOf i)).getLsbD (k - 24) :=
  BitVec.getLsbD_append

/-- One bit of F-RRR's operand bits (R63). -/
theorem getLsbD_bitsRRR (d a b : Reg) (k : Nat) :
    (bitsRRR d a b).getLsbD k =
      if k < 9 then false else if k < 14 then (regBits b).getLsbD (k - 9)
      else if k < 19 then (regBits a).getLsbD (k - 14) else (regBits d).getLsbD (k - 19) := by
  have h1 := @BitVec.getLsbD_append 15 9 k (regBits d ++ regBits a ++ regBits b) 0#9
  have h2 := @BitVec.getLsbD_append 10 5 (k - 9) (regBits d ++ regBits a) (regBits b)
  have h3 := @BitVec.getLsbD_append 5 5 (k - 9 - 5) (regBits d) (regBits a)
  have e : bitsRRR d a b = regBits d ++ regBits a ++ regBits b ++ 0#9 := rfl
  rw [e]
  refine h1.trans ?_
  rw [h2, h3]
  simp only [BitVec.getLsbD_zero, Nat.sub_sub]
  split_ifs <;> first | rfl | omega

/-- One bit of F-MI's operand bits (R64, R70). -/
theorem getLsbD_bitsMI (d : Reg) (i : BitVec 19) (k : Nat) :
    (bitsMI d i).getLsbD k =
      if k < 14 then i.getLsbD k else if k < 19 then (regBits d).getLsbD (k - 14)
      else if k < 24 then i.getLsbD (k - 5) else false := by
  have h1 := @BitVec.getLsbD_append 10 14 k (i.extractLsb' 14 5 ++ regBits d) (i.extractLsb' 0 14)
  have h2 := @BitVec.getLsbD_append 5 5 (k - 14) (i.extractLsb' 14 5) (regBits d)
  have e : bitsMI d i = i.extractLsb' 14 5 ++ regBits d ++ i.extractLsb' 0 14 := rfl
  rw [e]
  refine h1.trans ?_
  rw [h2]
  simp only [BitVec.getLsbD_extractLsb', Nat.sub_sub]
  grind

/-- One bit of the operand bits of the formats with a split 14-bit immediate (R65, R66, R69, R71, R73). -/
theorem getLsbD_bitsSplit14 (hi lo : BitVec 5) (i : BitVec 14) (k : Nat) :
    (bitsSplit14 hi lo i).getLsbD k =
      if k < 9 then i.getLsbD k else if k < 14 then lo.getLsbD (k - 9) else if k < 19 then hi.getLsbD (k - 14)
      else if k < 24 then i.getLsbD (k - 10) else false := by
  have h1 := @BitVec.getLsbD_append 15 9 k (i.extractLsb' 9 5 ++ hi ++ lo) (i.extractLsb' 0 9)
  have h2 := @BitVec.getLsbD_append 10 5 (k - 9) (i.extractLsb' 9 5 ++ hi) lo
  have h3 := @BitVec.getLsbD_append 5 5 (k - 9 - 5) (i.extractLsb' 9 5) hi
  have e : bitsSplit14 hi lo i = i.extractLsb' 9 5 ++ hi ++ lo ++ i.extractLsb' 0 9 := rfl
  rw [e]
  refine h1.trans ?_
  rw [h2, h3]
  simp only [BitVec.getLsbD_extractLsb', Nat.sub_sub]
  grind

/-- One bit of F-JR's operand bits (R68). -/
theorem getLsbD_bitsJR (a : Reg) (k : Nat) :
    (bitsJR a).getLsbD k = if k < 9 then false else if k < 14 then (regBits a).getLsbD (k - 9) else false := by
  have h1 := @BitVec.getLsbD_append 15 9 k (0#10 ++ regBits a) 0#9
  have h2 := @BitVec.getLsbD_append 10 5 (k - 9) 0#10 (regBits a)
  have e : bitsJR a = 0#10 ++ regBits a ++ 0#9 := rfl
  rw [e]
  refine h1.trans ?_
  rw [h2]
  simp only [BitVec.getLsbD_zero]
  split_ifs <;> first | rfl | omega

theorem encode_and_none (m : OpcodeMap) (i : Instr) (h : unusedMask (formatOf (opOf i)) = 0#32) :
    encode m i &&& unusedMask (formatOf (opOf i)) = 0#32 := by rw [h]; simp

theorem encode_and_spc (m : OpcodeMap) (i : Instr) (h : operandBits i = 0#24)
    (hf : unusedMask (formatOf (opOf i)) = 0x00FFFFFF#32) : encode m i &&& unusedMask (formatOf (opOf i)) = 0#32 := by
  apply BitVec.eq_of_getLsbD_eq
  intro k hk
  rw [hf, BitVec.getLsbD_and, getLsbD_encode, h]
  interval_cases k <;> simp

theorem encode_and_rrr (m : OpcodeMap) (i : Instr) (d a b : Reg) (h : operandBits i = bitsRRR d a b)
    (hf : unusedMask (formatOf (opOf i)) = 0x000001FF#32) : encode m i &&& unusedMask (formatOf (opOf i)) = 0#32 := by
  apply BitVec.eq_of_getLsbD_eq
  intro k hk
  rw [hf, BitVec.getLsbD_and, getLsbD_encode, h, getLsbD_bitsRRR]
  interval_cases k <;> simp

theorem encode_and_jr (m : OpcodeMap) (i : Instr) (a : Reg) (h : operandBits i = bitsJR a)
    (hf : unusedMask (formatOf (opOf i)) = 0x00FFC1FF#32) : encode m i &&& unusedMask (formatOf (opOf i)) = 0#32 := by
  apply BitVec.eq_of_getLsbD_eq
  intro k hk
  rw [hf, BitVec.getLsbD_and, getLsbD_encode, h, getLsbD_bitsJR]
  interval_cases k <;> simp

theorem encode_and_cj (m : OpcodeMap) (i : Instr) (a : Reg) (r : BitVec 14)
    (h : operandBits i = bitsSplit14 (regBits a) 0#5 r)
    (hf : unusedMask (formatOf (opOf i)) = 0x00003E00#32) : encode m i &&& unusedMask (formatOf (opOf i)) = 0#32 := by
  apply BitVec.eq_of_getLsbD_eq
  intro k hk
  rw [hf, BitVec.getLsbD_and, getLsbD_encode, h, getLsbD_bitsSplit14]
  interval_cases k <;> simp

theorem UnusedZero.nop : UnusedZero.Statement .nop :=
  fun m => encode_and_spc m _ rfl rfl
theorem UnusedZero.halt : UnusedZero.Statement .halt :=
  fun m => encode_and_spc m _ rfl rfl
theorem UnusedZero.movsi (dst : Reg) (simm : BitVec 19) : UnusedZero.Statement (.movsi dst simm) :=
  fun m => encode_and_none m _ rfl
theorem UnusedZero.movhi (dst : Reg) (simm : BitVec 19) : UnusedZero.Statement (.movhi dst simm) :=
  fun m => encode_and_none m _ rfl
theorem UnusedZero.add (dst src1 src2 : Reg) : UnusedZero.Statement (.add dst src1 src2) :=
  fun m => encode_and_rrr m _ _ _ _ rfl rfl
theorem UnusedZero.sub (dst src1 src2 : Reg) : UnusedZero.Statement (.sub dst src1 src2) :=
  fun m => encode_and_rrr m _ _ _ _ rfl rfl
theorem UnusedZero.mul (dst src1 src2 : Reg) : UnusedZero.Statement (.mul dst src1 src2) :=
  fun m => encode_and_rrr m _ _ _ _ rfl rfl
theorem UnusedZero.and (dst src1 src2 : Reg) : UnusedZero.Statement (.and dst src1 src2) :=
  fun m => encode_and_rrr m _ _ _ _ rfl rfl
theorem UnusedZero.or (dst src1 src2 : Reg) : UnusedZero.Statement (.or dst src1 src2) :=
  fun m => encode_and_rrr m _ _ _ _ rfl rfl
theorem UnusedZero.xor (dst src1 src2 : Reg) : UnusedZero.Statement (.xor dst src1 src2) :=
  fun m => encode_and_rrr m _ _ _ _ rfl rfl
theorem UnusedZero.sll (dst src1 src2 : Reg) : UnusedZero.Statement (.sll dst src1 src2) :=
  fun m => encode_and_rrr m _ _ _ _ rfl rfl
theorem UnusedZero.srl (dst src1 src2 : Reg) : UnusedZero.Statement (.srl dst src1 src2) :=
  fun m => encode_and_rrr m _ _ _ _ rfl rfl
theorem UnusedZero.sra (dst src1 src2 : Reg) : UnusedZero.Statement (.sra dst src1 src2) :=
  fun m => encode_and_rrr m _ _ _ _ rfl rfl
theorem UnusedZero.ld (dst src : Reg) (simm : BitVec 14) : UnusedZero.Statement (.ld dst src simm) :=
  fun m => encode_and_none m _ rfl
theorem UnusedZero.ldhs (dst src : Reg) (simm : BitVec 14) : UnusedZero.Statement (.ldhs dst src simm) :=
  fun m => encode_and_none m _ rfl
theorem UnusedZero.ldhu (dst src : Reg) (simm : BitVec 14) : UnusedZero.Statement (.ldhu dst src simm) :=
  fun m => encode_and_none m _ rfl
theorem UnusedZero.ldbs (dst src : Reg) (simm : BitVec 14) : UnusedZero.Statement (.ldbs dst src simm) :=
  fun m => encode_and_none m _ rfl
theorem UnusedZero.ldbu (dst src : Reg) (simm : BitVec 14) : UnusedZero.Statement (.ldbu dst src simm) :=
  fun m => encode_and_none m _ rfl
theorem UnusedZero.st (src2 src1 : Reg) (simm : BitVec 14) : UnusedZero.Statement (.st src2 src1 simm) :=
  fun m => encode_and_none m _ rfl
theorem UnusedZero.sth (src2 src1 : Reg) (simm : BitVec 14) : UnusedZero.Statement (.sth src2 src1 simm) :=
  fun m => encode_and_none m _ rfl
theorem UnusedZero.stb (src2 src1 : Reg) (simm : BitVec 14) : UnusedZero.Statement (.stb src2 src1 simm) :=
  fun m => encode_and_none m _ rfl
theorem UnusedZero.jumpAbs (absAddr : BitVec 24) : UnusedZero.Statement (.jumpAbs absAddr) :=
  fun m => encode_and_none m _ rfl
theorem UnusedZero.callAbs (absAddr : BitVec 24) : UnusedZero.Statement (.callAbs absAddr) :=
  fun m => encode_and_none m _ rfl
theorem UnusedZero.jumpReg (src : Reg) : UnusedZero.Statement (.jumpReg src) :=
  fun m => encode_and_jr m _ _ rfl rfl
theorem UnusedZero.callReg (src : Reg) : UnusedZero.Statement (.callReg src) :=
  fun m => encode_and_jr m _ _ rfl rfl
theorem UnusedZero.eq (dst src1 src2 : Reg) : UnusedZero.Statement (.eq dst src1 src2) :=
  fun m => encode_and_rrr m _ _ _ _ rfl rfl
theorem UnusedZero.neq (dst src1 src2 : Reg) : UnusedZero.Statement (.neq dst src1 src2) :=
  fun m => encode_and_rrr m _ _ _ _ rfl rfl
theorem UnusedZero.slt (dst src1 src2 : Reg) : UnusedZero.Statement (.slt dst src1 src2) :=
  fun m => encode_and_rrr m _ _ _ _ rfl rfl
theorem UnusedZero.ult (dst src1 src2 : Reg) : UnusedZero.Statement (.ult dst src1 src2) :=
  fun m => encode_and_rrr m _ _ _ _ rfl rfl
theorem UnusedZero.sle (dst src1 src2 : Reg) : UnusedZero.Statement (.sle dst src1 src2) :=
  fun m => encode_and_rrr m _ _ _ _ rfl rfl
theorem UnusedZero.ule (dst src1 src2 : Reg) : UnusedZero.Statement (.ule dst src1 src2) :=
  fun m => encode_and_rrr m _ _ _ _ rfl rfl
theorem UnusedZero.movz (dst src1 src2 : Reg) : UnusedZero.Statement (.movz dst src1 src2) :=
  fun m => encode_and_rrr m _ _ _ _ rfl rfl
theorem UnusedZero.movnz (dst src1 src2 : Reg) : UnusedZero.Statement (.movnz dst src1 src2) :=
  fun m => encode_and_rrr m _ _ _ _ rfl rfl
theorem UnusedZero.jumpz (src : Reg) (relAddr : BitVec 14) : UnusedZero.Statement (.jumpz src relAddr) :=
  fun m => encode_and_cj m _ _ _ rfl rfl
theorem UnusedZero.jumpnz (src : Reg) (relAddr : BitVec 14) : UnusedZero.Statement (.jumpnz src relAddr) :=
  fun m => encode_and_cj m _ _ _ rfl rfl
theorem UnusedZero.addi (dst src : Reg) (simm : BitVec 14) : UnusedZero.Statement (.addi dst src simm) :=
  fun m => encode_and_none m _ rfl
end Sys2Proof.Laws
end

