-- ==== Sys2Proof/Tests/Slice0.lean ====
section
/-! SUPPORT. Tests: ill-formed operands refused, words of the spec's tables decoded, one-step vectors of
spec/95_test_vectors.md, the assembler on small texts, and for every statement with hypotheses a state that meets
them. -/

namespace Sys2Proof.Tests

open Sys2Proof.Machine

/-! ### Well-formedness: one ill-formed term per check (R72, R73) -/

theorem test_illformed_jumpAbs : (Instr.jumpAbs 0x102).wellFormed = false := by decide
theorem test_illformed_callAbs : (Instr.callAbs 0x42).wellFormed = false := by decide
theorem test_illformed_jumpz : (Instr.jumpz 1 2).wellFormed = false := by decide
theorem test_illformed_jumpnz : (Instr.jumpnz 1 0x3FFF).wellFormed = false := by decide
theorem test_wellformed : (Instr.jumpAbs 0xFFFFFC).wellFormed = true ∧ (Instr.jumpz 1 0x2000).wellFormed = true := by
  decide

/-! ### Decoding: every constructor's word, under both maps, from 95_test_vectors.md section 1.1 -/

theorem test_decode_nop :
    decodeWord .section7 true 0x00000000 = .ok (.nop) ∧
      decodeWord .listing8 true 0x00000000 = .ok (.nop) := by decide
theorem test_decode_halt :
    decodeWord .section7 true 0x01000000 = .ok (.halt) ∧
      decodeWord .listing8 true 0x01000000 = .ok (.halt) := by decide
theorem test_decode_movz :
    decodeWord .section7 true 0x20088600 = .ok (.movz 1 2 3) ∧
      decodeWord .listing8 true 0x1F088600 = .ok (.movz 1 2 3) := by decide
theorem test_decode_movnz :
    decodeWord .section7 true 0x21088600 = .ok (.movnz 1 2 3) ∧
      decodeWord .listing8 true 0x20088600 = .ok (.movnz 1 2 3) := by decide
theorem test_decode_movsi :
    decodeWord .section7 true 0x02004002 = .ok (.movsi 1 2) ∧
      decodeWord .listing8 true 0x02004002 = .ok (.movsi 1 2) := by decide
theorem test_decode_movhi :
    decodeWord .section7 true 0x03004002 = .ok (.movhi 1 2) ∧
      decodeWord .listing8 true 0x03004002 = .ok (.movhi 1 2) := by decide
theorem test_decode_add :
    decodeWord .section7 true 0x05088600 = .ok (.add 1 2 3) ∧
      decodeWord .listing8 true 0x04088600 = .ok (.add 1 2 3) := by decide
theorem test_decode_sub :
    decodeWord .section7 true 0x06088600 = .ok (.sub 1 2 3) ∧
      decodeWord .listing8 true 0x05088600 = .ok (.sub 1 2 3) := by decide
theorem test_decode_mul :
    decodeWord .section7 true 0x07088600 = .ok (.mul 1 2 3) ∧
      decodeWord .listing8 true 0x06088600 = .ok (.mul 1 2 3) := by decide
theorem test_decode_and :
    decodeWord .section7 true 0x08088600 = .ok (.and 1 2 3) ∧
      decodeWord .listing8 true 0x07088600 = .ok (.and 1 2 3) := by decide
theorem test_decode_or :
    decodeWord .section7 true 0x09088600 = .ok (.or 1 2 3) ∧
      decodeWord .listing8 true 0x08088600 = .ok (.or 1 2 3) := by decide
theorem test_decode_xor :
    decodeWord .section7 true 0x0A088600 = .ok (.xor 1 2 3) ∧
      decodeWord .listing8 true 0x09088600 = .ok (.xor 1 2 3) := by decide
theorem test_decode_sll :
    decodeWord .section7 true 0x0B088600 = .ok (.sll 1 2 3) ∧
      decodeWord .listing8 true 0x0A088600 = .ok (.sll 1 2 3) := by decide
theorem test_decode_srl :
    decodeWord .section7 true 0x0C088600 = .ok (.srl 1 2 3) ∧
      decodeWord .listing8 true 0x0B088600 = .ok (.srl 1 2 3) := by decide
theorem test_decode_sra :
    decodeWord .section7 true 0x0D088600 = .ok (.sra 1 2 3) ∧
      decodeWord .listing8 true 0x0C088600 = .ok (.sra 1 2 3) := by decide
theorem test_decode_eq :
    decodeWord .section7 true 0x1A088600 = .ok (.eq 1 2 3) ∧
      decodeWord .listing8 true 0x19088600 = .ok (.eq 1 2 3) := by decide
theorem test_decode_neq :
    decodeWord .section7 true 0x1B088600 = .ok (.neq 1 2 3) ∧
      decodeWord .listing8 true 0x1A088600 = .ok (.neq 1 2 3) := by decide
theorem test_decode_slt :
    decodeWord .section7 true 0x1C088600 = .ok (.slt 1 2 3) ∧
      decodeWord .listing8 true 0x1B088600 = .ok (.slt 1 2 3) := by decide
theorem test_decode_ult :
    decodeWord .section7 true 0x1D088600 = .ok (.ult 1 2 3) ∧
      decodeWord .listing8 true 0x1C088600 = .ok (.ult 1 2 3) := by decide
theorem test_decode_sle :
    decodeWord .section7 true 0x1E088600 = .ok (.sle 1 2 3) ∧
      decodeWord .listing8 true 0x1D088600 = .ok (.sle 1 2 3) := by decide
theorem test_decode_ule :
    decodeWord .section7 true 0x1F088600 = .ok (.ule 1 2 3) ∧
      decodeWord .listing8 true 0x1E088600 = .ok (.ule 1 2 3) := by decide
theorem test_decode_addi :
    decodeWord .section7 true 0x24008203 = .ok (.addi 1 2 3) ∧
      decodeWord .listing8 true 0x23008203 = .ok (.addi 1 2 3) := by decide
theorem test_decode_ld :
    decodeWord .section7 true 0x0E008200 = .ok (.ld 1 2 0) ∧
      decodeWord .listing8 true 0x0D008200 = .ok (.ld 1 2 0) := by decide
theorem test_decode_ldhu :
    decodeWord .section7 true 0x10008200 = .ok (.ldhu 1 2 0) ∧
      decodeWord .listing8 true 0x0F008200 = .ok (.ldhu 1 2 0) := by decide
theorem test_decode_ldhs :
    decodeWord .section7 true 0x0F008200 = .ok (.ldhs 1 2 0) ∧
      decodeWord .listing8 true 0x0E008200 = .ok (.ldhs 1 2 0) := by decide
theorem test_decode_ldbu :
    decodeWord .section7 true 0x12008200 = .ok (.ldbu 1 2 0) ∧
      decodeWord .listing8 true 0x11008200 = .ok (.ldbu 1 2 0) := by decide
theorem test_decode_ldbs :
    decodeWord .section7 true 0x11008200 = .ok (.ldbs 1 2 0) ∧
      decodeWord .listing8 true 0x10008200 = .ok (.ldbs 1 2 0) := by decide
theorem test_decode_st :
    decodeWord .section7 true 0x13008200 = .ok (.st 1 2 0) ∧
      decodeWord .listing8 true 0x12008200 = .ok (.st 1 2 0) := by decide
theorem test_decode_stb :
    decodeWord .section7 true 0x15008200 = .ok (.stb 1 2 0) ∧
      decodeWord .listing8 true 0x14008200 = .ok (.stb 1 2 0) := by decide
theorem test_decode_sth :
    decodeWord .section7 true 0x14008200 = .ok (.sth 1 2 0) ∧
      decodeWord .listing8 true 0x13008200 = .ok (.sth 1 2 0) := by decide
theorem test_decode_jumpAbs :
    decodeWord .section7 true 0x16000200 = .ok (.jumpAbs 0x200) ∧
      decodeWord .listing8 true 0x15000200 = .ok (.jumpAbs 0x200) := by decide
theorem test_decode_callAbs :
    decodeWord .section7 true 0x17000200 = .ok (.callAbs 0x200) ∧
      decodeWord .listing8 true 0x16000200 = .ok (.callAbs 0x200) := by decide
theorem test_decode_jumpReg :
    decodeWord .section7 true 0x18000200 = .ok (.jumpReg 1) ∧
      decodeWord .listing8 true 0x17000200 = .ok (.jumpReg 1) := by decide
theorem test_decode_callReg :
    decodeWord .section7 true 0x19000200 = .ok (.callReg 1) ∧
      decodeWord .listing8 true 0x18000200 = .ok (.callReg 1) := by decide
theorem test_decode_jumpz :
    decodeWord .section7 true 0x22004008 = .ok (.jumpz 1 8) ∧
      decodeWord .listing8 true 0x21004008 = .ok (.jumpz 1 8) := by decide
theorem test_decode_jumpnz :
    decodeWord .section7 true 0x23004008 = .ok (.jumpnz 1 8) ∧
      decodeWord .listing8 true 0x22004008 = .ok (.jumpnz 1 8) := by decide
/-! Words that are no instruction, and words whose meaning the map or `STRICT_UNUSED` decides (section 2.12 there). -/

theorem test_decode_illegal : decodeWord .section7 true 0x25000000 = .error .unassignedOpcode ∧
    decodeWord .section7 true 0xFFFFFFFF = .error .unassignedOpcode ∧
    decodeWord .listing8 true 0x24008203 = .error .unassignedOpcode ∧
    decodeWord .section7 true 0x01800000 = .error .unusedNotZero ∧
    decodeWord .section7 true 0x22004208 = .error .unusedNotZero ∧
    decodeWord .section7 true 0x18004200 = .error .unusedNotZero := by decide
theorem test_decode_loose : decodeWord .section7 false 0x00000001 = .ok .nop ∧
    decodeWord .section7 false 0x18004200 = .ok (.jumpReg 1) ∧
    decodeWord .section7 false 0x22004208 = .ok (.jumpz 1 8) := by decide
theorem test_decode_by_map : decodeWord .listing8 true 0x04000000 = .ok (.add 0 0 0) ∧
    decodeWord .section7 true 0x11808C00 = .ok (.ldbs 6 2 0x2000) ∧
    decodeWord .listing8 true 0x11808C00 = .ok (.ldbu 6 2 0x2000) ∧
    decodeWord .listing8 true 0x18000200 = .ok (.callReg 1) := by decide
/-- 0x020FC000, bit by bit from R64 and R70: OPC 00000010, SIMM19[18:14] 00001, DST 11111, SIMM19[13:0] zeros. -/
theorem test_decode_split_bits :
    decodeWord .section7 true 0b00000010_00001_11111_00000000000000 = .ok (.movsi 31 0x4000) := by decide
/-- 0x24088200, from R65 and R71: OPC 00100100, SIMM14[13:9] 00001, SRC 00010, DST 00001, SIMM14[8:0] zeros. -/
theorem test_decode_split14_bits :
    decodeWord .section7 true 0b00100100_00001_00010_00001_000000000 = .ok (.addi 1 2 0x200) := by decide
theorem test_decodeBytes : decodeBytes .section7 true [0x05, 0x08, 0x86, 0x00] = .ok (.add 1 2 3) ∧
    decodeBytes .section7 true [0x05, 0x08, 0x86] = .error .notOneWord := by decide
theorem test_decodeTableWord : decodeTableWord 32 0x17000040 = some (.callAbs 0x40) := by decide

/-! ### One step -/

/-- The reset state with a program counter, some registers and some bytes. -/
def start (pc : Word) (regs : List (Reg × Word)) (mem : List (Nat × Byte)) : State :=
  regs.foldl (fun s p => s.writeReg p.1 p.2) (({ State.reset with
    mem := mem.foldl (fun m p => m.write p.1 p.2) [] } : State).setPc pc)

/-- One step of it, with a word placed at the program counter. -/
def run1 (pc : Word) (regs : List (Reg × Word)) (mem : List (Nat × Byte)) (w : Nat) : Result :=
  step ((start pc regs mem).withFetchWord 32 w)

def regAfter (o : Result) (r : Reg) : Option Word :=
  match o with
  | .next t => some (t.readReg r)
  | _ => none
def pcAfter (o : Result) : Option Word :=
  match o with
  | .next t => some t.pc
  | _ => none
def haltedAfter (o : Result) : Option Bool :=
  match o with
  | .next t => some t.halted
  | _ => none
def bytesAfter (o : Result) (a n : Nat) : List (Option Byte) :=
  match o with
  | .next t => (List.range n).map fun k => t.mem.read (a + k)
  | _ => []
def faultOf (o : Result) : Option Fault :=
  match o with
  | .fault f => some f
  | _ => none
def refusalOf (o : Result) : Option Refusal :=
  match o with
  | .refused r => some r
  | _ => none

/-- The bytes the load vectors read, at 0x1000. -/
def loadBytesAt1000 : List (Nat × Byte) := [(0x1000, 0x80), (0x1001, 0x01), (0x1002, 0xFF), (0x1003, 0x7F)]

/-- The bytes the store vectors write over, at 0x2000. -/
def zerosAt2000 : List (Nat × Byte) := [(0x2000, 0), (0x2001, 0), (0x2002, 0), (0x2003, 0)]

/-- E1. -/
theorem test_nop_E1 :
    let o := run1 0x00000100 [] [] 0x00000000
    pcAfter o = some 0x00000104 := by decide

/-- E2. -/
theorem test_halt_E2 :
    let o := run1 0x00000100 [] [] 0x01000000
    haltedAfter o = some true := by decide

/-- E3. -/
theorem test_movz_E3 :
    let o := run1 0x00000100 [(1, 0xAAAAAAAA), (2, 0x00000000), (3, 0x00000005)] [] 0x20088600
    regAfter o 1 = some 0x00000005 ∧ pcAfter o = some 0x00000104 := by decide

/-- E4. -/
theorem test_movnz_E4 :
    let o := run1 0x00000100 [(1, 0xAAAAAAAA), (2, 0x00000000), (3, 0x00000005)] [] 0x21088600
    regAfter o 1 = some 0xAAAAAAAA ∧ pcAfter o = some 0x00000104 := by decide

/-- E5. -/
theorem test_movsi_E5 :
    let o := run1 0x00000100 [(1, 0xAAAAAAAA)] [] 0x02004002
    regAfter o 1 = some 0x00000002 ∧ pcAfter o = some 0x00000104 := by decide

/-- E6. -/
theorem test_movhi_E6 :
    let o := run1 0x00000100 [(1, 0xAAAAAAAA)] [] 0x03004002
    regAfter o 1 = some 0x0002AAAA ∧ pcAfter o = some 0x00000104 := by decide

/-- E7. -/
theorem test_add_E7 :
    let o := run1 0x00000100 [(1, 0xAAAAAAAA), (2, 0xFFFFFFF4), (3, 0x00000005)] [] 0x05088600
    regAfter o 1 = some 0xFFFFFFF9 ∧ pcAfter o = some 0x00000104 := by decide

/-- E8. -/
theorem test_sub_E8 :
    let o := run1 0x00000100 [(1, 0xAAAAAAAA), (2, 0xFFFFFFF4), (3, 0x00000005)] [] 0x06088600
    regAfter o 1 = some 0xFFFFFFEF ∧ pcAfter o = some 0x00000104 := by decide

/-- E9. -/
theorem test_mul_E9 :
    let o := run1 0x00000100 [(1, 0xAAAAAAAA), (2, 0xFFFFFFF4), (3, 0x00000005)] [] 0x07088600
    regAfter o 1 = some 0xFFFFFFC4 ∧ pcAfter o = some 0x00000104 := by decide

/-- E10. -/
theorem test_and_E10 :
    let o := run1 0x00000100 [(1, 0xAAAAAAAA), (2, 0xFFFFFFF4), (3, 0x00000005)] [] 0x08088600
    regAfter o 1 = some 0x00000004 ∧ pcAfter o = some 0x00000104 := by decide

/-- E11. -/
theorem test_or_E11 :
    let o := run1 0x00000100 [(1, 0xAAAAAAAA), (2, 0xFFFFFFF4), (3, 0x00000005)] [] 0x09088600
    regAfter o 1 = some 0xFFFFFFF5 ∧ pcAfter o = some 0x00000104 := by decide

/-- E12. -/
theorem test_xor_E12 :
    let o := run1 0x00000100 [(1, 0xAAAAAAAA), (2, 0xFFFFFFF4), (3, 0x00000005)] [] 0x0A088600
    regAfter o 1 = some 0xFFFFFFF1 ∧ pcAfter o = some 0x00000104 := by decide

/-- E13. -/
theorem test_sll_E13 :
    let o := run1 0x00000100 [(1, 0xAAAAAAAA), (2, 0xFFFFFFF4), (3, 0x00000005)] [] 0x0B088600
    regAfter o 1 = some 0xFFFFFE80 ∧ pcAfter o = some 0x00000104 := by decide

/-- E14. -/
theorem test_srl_E14 :
    let o := run1 0x00000100 [(1, 0xAAAAAAAA), (2, 0xFFFFFFF4), (3, 0x00000005)] [] 0x0C088600
    regAfter o 1 = some 0x07FFFFFF ∧ pcAfter o = some 0x00000104 := by decide

/-- E15. -/
theorem test_sra_E15 :
    let o := run1 0x00000100 [(1, 0xAAAAAAAA), (2, 0xFFFFFFF4), (3, 0x00000005)] [] 0x0D088600
    regAfter o 1 = some 0xFFFFFFFF ∧ pcAfter o = some 0x00000104 := by decide

/-- E16. -/
theorem test_eq_E16 :
    let o := run1 0x00000100 [(1, 0xAAAAAAAA), (2, 0xFFFFFFF4), (3, 0x00000005)] [] 0x1A088600
    regAfter o 1 = some 0x00000000 ∧ pcAfter o = some 0x00000104 := by decide

/-- E17. -/
theorem test_neq_E17 :
    let o := run1 0x00000100 [(1, 0xAAAAAAAA), (2, 0xFFFFFFF4), (3, 0x00000005)] [] 0x1B088600
    regAfter o 1 = some 0x00000001 ∧ pcAfter o = some 0x00000104 := by decide

/-- E18. -/
theorem test_slt_E18 :
    let o := run1 0x00000100 [(1, 0xAAAAAAAA), (2, 0xFFFFFFF4), (3, 0x00000005)] [] 0x1C088600
    regAfter o 1 = some 0x00000001 ∧ pcAfter o = some 0x00000104 := by decide

/-- E19. -/
theorem test_ult_E19 :
    let o := run1 0x00000100 [(1, 0xAAAAAAAA), (2, 0xFFFFFFF4), (3, 0x00000005)] [] 0x1D088600
    regAfter o 1 = some 0x00000000 ∧ pcAfter o = some 0x00000104 := by decide

/-- E20. -/
theorem test_sle_E20 :
    let o := run1 0x00000100 [(1, 0xAAAAAAAA), (2, 0xFFFFFFF4), (3, 0x00000005)] [] 0x1E088600
    regAfter o 1 = some 0x00000001 ∧ pcAfter o = some 0x00000104 := by decide

/-- E21. -/
theorem test_ule_E21 :
    let o := run1 0x00000100 [(1, 0xAAAAAAAA), (2, 0xFFFFFFF4), (3, 0x00000005)] [] 0x1F088600
    regAfter o 1 = some 0x00000000 ∧ pcAfter o = some 0x00000104 := by decide

/-- E22. -/
theorem test_addi_E22 :
    let o := run1 0x00000100 [(1, 0xAAAAAAAA), (2, 0xFFFFFFF4), (3, 0x00000005)] [] 0x24008203
    regAfter o 1 = some 0xFFFFFFF7 ∧ pcAfter o = some 0x00000104 := by decide

/-- E23. -/
theorem test_ld_E23 :
    let o := run1 0x00000100 [(1, 0xAAAAAAAA), (2, 0x00001000)] loadBytesAt1000 0x0E008200
    regAfter o 1 = some 0x8001FF7F ∧ pcAfter o = some 0x00000104 := by decide

/-- E24. -/
theorem test_ldhu_E24 :
    let o := run1 0x00000100 [(1, 0xAAAAAAAA), (2, 0x00001000)] loadBytesAt1000 0x10008200
    regAfter o 1 = some 0x00008001 ∧ pcAfter o = some 0x00000104 := by decide

/-- E25. -/
theorem test_ldhs_E25 :
    let o := run1 0x00000100 [(1, 0xAAAAAAAA), (2, 0x00001000)] loadBytesAt1000 0x0F008200
    regAfter o 1 = some 0xFFFF8001 ∧ pcAfter o = some 0x00000104 := by decide

/-- E26. -/
theorem test_ldbu_E26 :
    let o := run1 0x00000100 [(1, 0xAAAAAAAA), (2, 0x00001000)] loadBytesAt1000 0x12008200
    regAfter o 1 = some 0x00000080 ∧ pcAfter o = some 0x00000104 := by decide

/-- E27. -/
theorem test_ldbs_E27 :
    let o := run1 0x00000100 [(1, 0xAAAAAAAA), (2, 0x00001000)] loadBytesAt1000 0x11008200
    regAfter o 1 = some 0xFFFFFF80 ∧ pcAfter o = some 0x00000104 := by decide

/-- E28. -/
theorem test_st_E28 :
    let o := run1 0x00000100 [(1, 0xA1B2C3D4), (2, 0x00002000)] zerosAt2000 0x13008200
    bytesAfter o 0x00002000 4 = [some 0xA1, some 0xB2, some 0xC3, some 0xD4] ∧ pcAfter o = some 0x00000104 := by decide

/-- E29. -/
theorem test_stb_E29 :
    let o := run1 0x00000100 [(1, 0xA1B2C3D4), (2, 0x00002000)] zerosAt2000 0x15008200
    bytesAfter o 0x00002000 1 = [some 0xD4] ∧ pcAfter o = some 0x00000104 := by decide

/-- E30. -/
theorem test_sth_E30 :
    let o := run1 0x00000100 [(1, 0xA1B2C3D4), (2, 0x00002000)] zerosAt2000 0x14008200
    bytesAfter o 0x00002000 2 = [some 0xC3, some 0xD4] ∧ pcAfter o = some 0x00000104 := by decide

/-- E31. -/
theorem test_jumpAbs_E31 :
    let o := run1 0x00000100 [] [] 0x16000200
    pcAfter o = some 0x00000200 := by decide

/-- E32. -/
theorem test_callAbs_E32 :
    let o := run1 0x00000100 [] [] 0x17000200
    regAfter o 3 = some 0x00000104 ∧ pcAfter o = some 0x00000200 := by decide

/-- E33. -/
theorem test_jumpReg_E33 :
    let o := run1 0x00000100 [(1, 0x00000300)] [] 0x18000200
    regAfter o 1 = some 0x00000300 ∧ pcAfter o = some 0x00000300 := by decide

/-- E34. -/
theorem test_callReg_E34 :
    let o := run1 0x00000100 [(1, 0x00000300)] [] 0x19000200
    regAfter o 3 = some 0x00000104 ∧ pcAfter o = some 0x00000300 := by decide

/-- E35. -/
theorem test_jumpz_E35 :
    let o := run1 0x00000100 [(1, 0x00000000)] [] 0x22004008
    regAfter o 1 = some 0x00000000 ∧ pcAfter o = some 0x00000108 := by decide

/-- E36. -/
theorem test_jumpnz_E36 :
    let o := run1 0x00000100 [(1, 0x00000000)] [] 0x23004008
    regAfter o 1 = some 0x00000000 ∧ pcAfter o = some 0x00000104 := by decide

/-- V-SP3. -/
theorem test_nop_V_SP3 :
    let o := run1 0xFFFFFFFC [] [] 0x00000000
    pcAfter o = some 0x00000000 := by decide

/-- V-CM3. -/
theorem test_movnz_V_CM3 :
    let o := run1 0x00000100 [(1, 0x0000AAAA), (2, 0x80000000), (3, 0x00000055)] [] 0x21088600
    regAfter o 1 = some 0x00000055 ∧ pcAfter o = some 0x00000104 := by decide

/-- V-CM5. -/
theorem test_movz_V_CM5 :
    let o := run1 0x00000100 [(1, 0x00000000), (2, 0x00000077)] [] 0x20084400
    regAfter o 1 = some 0x00000077 ∧ pcAfter o = some 0x00000104 := by decide

/-- V-MI4. -/
theorem test_movsi_V_MI4 :
    let o := run1 0x00000100 [] [] 0x02808000
    regAfter o 2 = some 0xFFFC0000 ∧ pcAfter o = some 0x00000104 := by decide

/-- V-MI7. -/
theorem test_movhi_V_MI7 :
    let o := run1 0x00000100 [(1, 0x12345678)] [] 0x03F87FFF
    regAfter o 1 = some 0xFFFF5678 ∧ pcAfter o = some 0x00000104 := by decide

/-- V-AL2. -/
theorem test_add_V_AL2 :
    let o := run1 0x00000100 [(2, 0x7FFFFFFF), (3, 0x00000001)] [] 0x05088600
    regAfter o 1 = some 0x80000000 ∧ pcAfter o = some 0x00000104 := by decide

/-- V-AL5. -/
theorem test_sub_V_AL5 :
    let o := run1 0x00000100 [(2, 0x00000000), (3, 0x00000001)] [] 0x06088600
    regAfter o 1 = some 0xFFFFFFFF ∧ pcAfter o = some 0x00000104 := by decide

/-- V-AL10. -/
theorem test_mul_V_AL10 :
    let o := run1 0x00000100 [(2, 0xFFFFFFFE), (3, 0x00000003)] [] 0x07088600
    regAfter o 1 = some 0xFFFFFFFA ∧ pcAfter o = some 0x00000104 := by decide

/-- V-AL12. -/
theorem test_and_V_AL12 :
    let o := run1 0x00000100 [(2, 0xF0F0FF00), (3, 0x0FF0F0F0)] [] 0x08088600
    regAfter o 1 = some 0x00F0F000 ∧ pcAfter o = some 0x00000104 := by decide

/-- V-AL13. -/
theorem test_or_V_AL13 :
    let o := run1 0x00000100 [(2, 0xF0F0FF00), (3, 0x0FF0F0F0)] [] 0x09088600
    regAfter o 1 = some 0xFFF0FFF0 ∧ pcAfter o = some 0x00000104 := by decide

/-- V-AL14. -/
theorem test_xor_V_AL14 :
    let o := run1 0x00000100 [(2, 0xF0F0FF00), (3, 0x0FF0F0F0)] [] 0x0A088600
    regAfter o 1 = some 0xFF000FF0 ∧ pcAfter o = some 0x00000104 := by decide

/-- V-AL19. -/
theorem test_sll_V_AL19 :
    let o := run1 0x00000100 [(2, 0x00000001), (3, 0xFFFFFFE4)] [] 0x0B088600
    regAfter o 1 = some 0x00000010 ∧ pcAfter o = some 0x00000104 := by decide

/-- V-AL22. -/
theorem test_srl_V_AL22 :
    let o := run1 0x00000100 [(2, 0xFFFFFFFF), (3, 0x00000021)] [] 0x0C088600
    regAfter o 1 = some 0x7FFFFFFF ∧ pcAfter o = some 0x00000104 := by decide

/-- V-AL25. -/
theorem test_sra_V_AL25 :
    let o := run1 0x00000100 [(2, 0xFFFFFFF1), (3, 0x00000002)] [] 0x0D088600
    regAfter o 1 = some 0xFFFFFFFC ∧ pcAfter o = some 0x00000104 := by decide

/-- V-CP1. -/
theorem test_eq_V_CP1 :
    let o := run1 0x00000100 [(2, 0x00000005), (3, 0x00000005)] [] 0x1A088600
    regAfter o 1 = some 0x00000001 ∧ pcAfter o = some 0x00000104 := by decide

/-- V-CP4. -/
theorem test_neq_V_CP4 :
    let o := run1 0x00000100 [(1, 0x00000007), (2, 0x00000005), (3, 0x00000005)] [] 0x1B088600
    regAfter o 1 = some 0x00000000 ∧ pcAfter o = some 0x00000104 := by decide

/-- V-CP7. -/
theorem test_slt_V_CP7 :
    let o := run1 0x00000100 [(2, 0x80000000), (3, 0x7FFFFFFF)] [] 0x1C088600
    regAfter o 1 = some 0x00000001 ∧ pcAfter o = some 0x00000104 := by decide

/-- V-CP14. -/
theorem test_ult_V_CP14 :
    let o := run1 0x00000100 [(2, 0x00000000), (3, 0x00000001)] [] 0x1D088600
    regAfter o 1 = some 0x00000001 ∧ pcAfter o = some 0x00000104 := by decide

/-- V-CP10. -/
theorem test_sle_V_CP10 :
    let o := run1 0x00000100 [(2, 0x00000005), (3, 0x00000005)] [] 0x1E088600
    regAfter o 1 = some 0x00000001 ∧ pcAfter o = some 0x00000104 := by decide

/-- V-CP12. -/
theorem test_ule_V_CP12 :
    let o := run1 0x00000100 [(2, 0x00000001), (3, 0xFFFFFFFF)] [] 0x1F088600
    regAfter o 1 = some 0x00000001 ∧ pcAfter o = some 0x00000104 := by decide

/-- V-AI4. -/
theorem test_addi_V_AI4 :
    let o := run1 0x00000100 [(2, 0x00001000)] [] 0x24808200
    regAfter o 1 = some 0xFFFFF000 ∧ pcAfter o = some 0x00000104 := by decide

/-- V-LD12. -/
theorem test_ld_V_LD12 :
    faultOf (run1 0x00000100 [(2, 0x00001000)] loadBytesAt1000 0x0E008202) = some (.misalignedAccess 0x00001002 4) := by decide

/-- V-LD13. -/
theorem test_ldhu_V_LD13 :
    faultOf (run1 0x00000100 [(2, 0x00001000)] loadBytesAt1000 0x10008201) = some (.misalignedAccess 0x00001001 2) := by decide

/-- V-LD5. -/
theorem test_ldhs_V_LD5 :
    let o := run1 0x00000100 [(2, 0x00001000)] loadBytesAt1000 0x0F008202
    regAfter o 1 = some 0xFFFFFF7F ∧ pcAfter o = some 0x00000104 := by decide

/-- V-LD18. -/
theorem test_ldbu_V_LD18 :
    let o := run1 0x00000100 [(2, 0x00000000)] [(4294967295, 0x5A)] 0x12F883FF
    regAfter o 1 = some 0x0000005A ∧ pcAfter o = some 0x00000104 := by decide

/-- V-LD8. -/
theorem test_ldbs_V_LD8 :
    let o := run1 0x00000100 [(2, 0x00001000)] loadBytesAt1000 0x11008203
    regAfter o 1 = some 0x0000007F ∧ pcAfter o = some 0x00000104 := by decide

/-- V-ST5. -/
theorem test_st_V_ST5 :
    let o := run1 0x00000100 [(2, 0x00002000)] [] 0x13008400
    bytesAfter o 0x00002000 4 = [some 0x00, some 0x00, some 0x20, some 0x00] ∧ pcAfter o = some 0x00000104 := by decide

/-- V-ST7. -/
theorem test_sth_V_ST7 :
    faultOf (run1 0x00000100 [(1, 0x00000001), (2, 0x00002000)] [] 0x14008203) = some (.misalignedAccess 0x00002003 2) := by decide

/-- V-ST8. -/
theorem test_stb_V_ST8 :
    let o := run1 0x00000100 [(2, 0x00002000), (6, 0x000001FF)] [] 0x15008C03
    bytesAfter o 0x00002003 1 = [some 0xFF] ∧ pcAfter o = some 0x00000104 := by decide

/-- V-JC8. -/
theorem test_jumpAbs_V_JC8 :
    let o := run1 0x01000000 [] [] 0x16000100
    pcAfter o = some 0x00000100 := by decide

/-- V-JC6. -/
theorem test_callAbs_V_JC6 :
    faultOf (run1 0x00000020 [(3, 0x00000999)] [] 0x17000042) = some (.misalignedTarget 0x00000042) := by decide

/-- V-JR3. -/
theorem test_jumpReg_V_JR3 :
    let o := run1 0x00000020 [(1, 0xFFFFFFF0)] [] 0x18000200
    regAfter o 1 = some 0xFFFFFFF0 ∧ pcAfter o = some 0xFFFFFFF0 := by decide

/-- V-CJ8. -/
theorem test_jumpz_V_CJ8 :
    faultOf (run1 0x00000100 [(1, 0x00000000)] [] 0x22004002) = some (.misalignedTarget 0x00000102) := by decide

/-- V-CJ10. -/
theorem test_jumpnz_V_CJ10 :
    let o := run1 0x00000004 [(1, 0x80000000)] [] 0x23F841F8
    regAfter o 1 = some 0x80000000 ∧ pcAfter o = some 0xFFFFFFFC := by decide
/-- V-JR7: `call r3` is refused, with its word. -/
theorem test_callReg_r3 :
    refusalOf (run1 0x20 [(3, 0x400)] [] 0x19000600) = some (.ambiguousCallR3 0x19000600) := by decide

/-- V-CJ11: `COND_JUMP_BASE` = 4. -/
theorem test_jumpz_base_four :
    pcAfter (exec (.jumpz 1 8) { start 0x100 [] [] with params := { Config.params with condJumpBase := .four } }) =
      some 0x10C := by decide

/-- R4, R141: `CMP_TRUE` = 0xFFFFFFFF. -/
theorem test_cmpTrue :
    regAfter (exec (.eq 1 2 3) { start 0x100 [] [] with params := { Config.params with cmpTrue := 0xFFFFFFFF } }) 1 =
      some 0xFFFFFFFF := by decide

/-- R46: a store into `CODE_REGION`. -/
theorem test_store_into_code :
    refusalOf (exec (.stb 1 2 3) { start 0x100 [(2, 0x200)] [] with
      params := { Config.params with codeRegion := [⟨0x200, 4⟩] } }) = some (.codeWriteRefused 0x203 1) := by decide

/-- R19, R25: after HALT there is no step. -/
theorem test_no_step_after_halt : faultOf (step { State.reset with halted := true }) = some .halted := by decide

/-- R50, R261: at reset no program is loaded, so the first fetch reads bytes that hold no value. -/
theorem test_reset_without_program : faultOf (step State.reset) = some (.uninitialisedRead 0 4) := by decide

theorem reset_inv : StepInv State.reset := by decide

/-! ### The assembler -/

/-- P1 of 95_test_vectors.md section 3, its first three and last three lines shortened to a loop of two. -/
theorem test_assemble :
    assemble .section7 .zero 0x8 "loop: r2 = add r2, r1 // sum\n r1 = addi r1, -1\n jumpnz r1, $loop\n halt".toList =
      some [(0x8, 0x05108200), (0xC, 0x24F843FF), (0x10, 0x23F841F8), (0x14, 0x01000000)] := by decide

/-- `.equiv`, `.text` in capitals, comments, hexadecimal and binary numbers (R84, R85, R87, R88). -/
theorem test_assemble_directives :
    assemble .section7 .zero 0 ".TEXT\n.equiv k, 0x1F\nr1 = movsi k /* thirty-one */\nst r1, [R2 + 0b100]".toList =
      some [(0, 0x0200401F), (4, 0x13008204)] := by decide

/-- V-S2, V-S4: `jmp` is no mnemonic, and ADDI needs its destination. -/
theorem test_assemble_refuses :
    assemble .section7 .zero 0 "jmp label_name".toList = none ∧
      assemble .section7 .zero 0 "addi R1, 2".toList = none := by decide

/-- A block comment ends at the first closing sign, and mnemonics are lower case: both choices of log entry 27. -/
theorem test_assemble_choices :
    assemble .section7 .zero 0 "/* a /* b */ nop".toList = some [(0, 0x00000000)] ∧
      assemble .section7 .zero 0 "/* a /* b */ */ nop".toList = none ∧
      assemble .section7 .zero 0 "NOP".toList = none := by decide

/-- Where a name that `.equiv` defined may stand (log entry 27): after a plus sign, not after a minus sign, and not as
ABS_ADDR. -/
theorem test_assemble_defined_names :
    assemble .section7 .zero 0 ".equiv k, 4\nst r1, [r2 + k]".toList = some [(0, 0x13008204)] ∧
      assemble .section7 .zero 0 ".equiv k, 4\nst r1, [r2 - k]".toList = none ∧
      assemble .section7 .zero 0 ".equiv k, 4\njump k".toList = none ∧
      assemble .section7 .zero 0 ".equiv k, 4\njump $k".toList = none := by decide

/-! ### The launch -/

/-- ST r1, [r2+0] at 0x100 and HALT in the last word of the address space, and one byte of data at 0x2000 (E28, E2). -/
def demoLaunch : LaunchParams :=
  { resetPc := 0x100, memInit := { program := [(0x100, 0x13008200), (0xFFFFFFFC, 0x01000000)], data := [(0x2000, 7)] } }

/-- R3: without a value of its own `CODE_REGION` is the program's addresses; R34: its words lie big-endian. -/
theorem test_launch : (State.launch demoLaunch).params.codeRegion = [⟨0x100, 4⟩, ⟨0xFFFFFFFC, 4⟩] ∧
    (State.launch demoLaunch).mem = [(0x100, 0x13), (0x101, 0x00), (0x102, 0x82), (0x103, 0x00), (0x2000, 7),
      (0xFFFFFFFC, 0x01), (0xFFFFFFFD, 0), (0xFFFFFFFE, 0), (0xFFFFFFFF, 0)] := by decide

/-- R46: the same launch with `r2` at its own first instruction refuses the store. -/
theorem test_launch_refuses_code_write :
    refusalOf (step ((State.launch demoLaunch).writeReg 2 0x100)) = some (.codeWriteRefused 0x100 4) := by decide

theorem demoLaunch_wf : LaunchWf demoLaunch :=
  ⟨by decide, by decide, List.forall_mem_cons.2 ⟨by decide, List.forall_mem_singleton.2 (by decide)⟩, by decide⟩

theorem witness_LaunchPlacesProgram : LaunchWf demoLaunch ∧
    demoLaunch.memInit.program.Pairwise (fun p q => p.1 ≠ q.1) ∧
    demoLaunch.memInit.data.Pairwise (fun c d => c.1 ≠ d.1) ∧
    (∀ p ∈ demoLaunch.memInit.program, 0x2000 ∉ addrsOf p.1 4 ∧ 0x104 ∉ addrsOf p.1 4) ∧
    (∀ c ∈ demoLaunch.memInit.data, c.1 ≠ 0x104) ∧ demoLaunch.codeRegion = codeRegionOf demoLaunch.memInit :=
  ⟨demoLaunch_wf, by decide, by decide,
    List.forall_mem_cons.2 ⟨by decide, List.forall_mem_singleton.2 (by decide)⟩, by decide, rfl⟩

/-- STB at displacement -1, the last byte of the program, and at -4, its first. -/
theorem witness_LaunchedProgramIsGuarded : demoLaunch.codeRegion = codeRegionOf demoLaunch.memInit ∧
    Host.Core.run Sys2Proof.core 0 (State.launch demoLaunch) = .next (State.launch demoLaunch) ∧
    IsStore (.stb 1 2 0x3FFF) 1 2 0x3FFF ∧
    (effAddr (State.launch demoLaunch) 2 0x3FFF).toNat % storeBytes (.stb 1 2 0x3FFF) = 0 ∧
    Mapped (State.launch demoLaunch) (effAddr (State.launch demoLaunch) 2 0x3FFF) 1 ∧
    (∃ p ∈ demoLaunch.memInit.program, p.1.toNat % 4 = 0 ∧
      ∃ x ∈ addrsOf (effAddr (State.launch demoLaunch) 2 0x3FFF) 1, x ∈ addrsOf p.1 4) ∧
    ∃ x ∈ addrsOf (effAddr (State.launch demoLaunch) 2 0x3FFC) 4, x ∈ addrsOf 0xFFFFFFFC 4 := by
  refine ⟨rfl, rfl, .inr (.inr rfl), ?_⟩; decide

/-! ### What the spec's tables say beside the step -/

theorem test_tables : latency (.ldbu 1 2 0) = 2 ∧ latency (.mul 1 2 3) = 1 ∧ regRole 0 = .stackPointer ∧
    regRole 7 = .argumentOrReturnValue ∧ cSize .longLong = 8 ∧ cAlign .longLong = 4 := by decide

theorem test_inline_asm : inlineIsVolatile (.basic false "nop".toList) = true := by decide

/-! ### Every hypothesis can be met -/

/-- Memory at 0 to 0x2FFF and in the last 0x1000 bytes of the address space; ADD at 0x100 in the code region; a word at
0x1000 and in the last four bytes. -/
def demo : State :=
  { start 0x100 [(2, 0x1000), (3, 5), (4, 0xFFFFFFFF), (5, 0x3000), (6, 0x2000), (7, 0x100)]
      [(0x100, 0x05), (0x101, 0x08), (0x102, 0x86), (0x103, 0x00), (0x1000, 0x80), (0x1001, 1), (0x1002, 0xFF),
        (0x1003, 0x7F), (0xFFFFFFFC, 1), (0xFFFFFFFD, 2), (0xFFFFFFFE, 3), (0xFFFFFFFF, 0x84)] with
    params := { Config.params with memMap := [⟨0, 0x3000⟩, ⟨0xFFFFF000, 0x1000⟩], codeRegion := [⟨0x100, 4⟩] } }

theorem demo_inv : StepInv demo := by decide

theorem witness_EncodeOfDecodedWord : decodeWord .listing8 true 0x21004008 = .ok (.jumpz 1 8) := by decide
theorem witness_LooseDecodeClearsUnused : opOfOpcode .section7 (opcField 0x05088601) = some .add := by decide
theorem witness_FieldsOfUnsplitFormats :
    (0x05088600 : Word).extractLsb' 24 8 = (0x05000000 : Word).extractLsb' 24 8 ∧
      decodeWord .section7 true 0x05088600 = .ok (.add 1 2 3) ∧
      decodeWord .section7 true 0x05000000 = .ok (.add 0 0 0) ∧
      Instr.halt ∈ [Instr.nop, .halt] ∧ Instr.callAbs 4 ∈ [Instr.jumpAbs 4, .callAbs 4] ∧
      Instr.callReg 4 ∈ [Instr.jumpReg 4, .callReg 4] := by decide
theorem witness_FieldsOfSplitFormats :
    Instr.movhi 31 0x7FFFF ∈ [Instr.movsi 31 0x7FFFF, .movhi 31 0x7FFFF] ∧ IsLoad (.ldbu 31 0 0x3FFF) 31 0 0x3FFF ∧
      IsStore (.stb 31 0 0x3FFF) 31 0 0x3FFF ∧ Instr.jumpnz 0 0x3FFF ∈ [Instr.jumpz 0 0x3FFF, .jumpnz 0 0x3FFF] := by
  refine ⟨by decide, ?_, ?_, by decide⟩ <;> simp [IsLoad, IsStore]
theorem witness_OpcodeMaps : Op.movhi ∈ [Op.nop, .halt, .movsi, .movhi] ∧ Op.addi ∉ [Op.nop, .halt, .movsi, .movhi] := by
  decide

/-- The last byte, half-word and word of the address space. -/
theorem witness_MemReadIsBigEndian :
    (Mapped demo 0xFFFFFFFF 1 ∧ byteAt demo 0xFFFFFFFF 0 = some 0x84) ∧
    ((0xFFFFFFFE : Word).toNat % 2 = 0 ∧ Mapped demo 0xFFFFFFFE 2 ∧ byteAt demo 0xFFFFFFFE 0 = some 3 ∧
      byteAt demo 0xFFFFFFFE 1 = some 0x84) ∧
    ((0xFFFFFFFC : Word).toNat % 4 = 0 ∧ Mapped demo 0xFFFFFFFC 4 ∧ byteAt demo 0xFFFFFFFC 0 = some 1 ∧
      byteAt demo 0xFFFFFFFC 1 = some 2 ∧ byteAt demo 0xFFFFFFFC 2 = some 3 ∧ byteAt demo 0xFFFFFFFC 3 = some 0x84) := by
  decide

/-- The bytes right after the code region; in StoreResults the same at the effective address `r7 + 4`. -/
theorem witness_MemWriteIsBigEndian :
    (Mapped demo 0x104 1 ∧ OutsideCode demo 0x104 1) ∧
    ((0x104 : Word).toNat % 2 = 0 ∧ Mapped demo 0x104 2 ∧ OutsideCode demo 0x104 2) ∧
    ((0x104 : Word).toNat % 4 = 0 ∧ Mapped demo 0x104 4 ∧ OutsideCode demo 0x104 4) ∧ effAddr demo 7 4 = 0x104 := by
  decide

theorem witness_WordReadBackInPieces : ∃ t, memWrite demo 0xFFFFFFFC 4 0x11223344 = .next t := ⟨_, rfl⟩
theorem witness_CanonicalMemoriesEqual :
    ∃ m m' : Memory, m.wf ∧ m'.wf ∧ (∀ a, m.read a = m'.read a) ∧ m = [(0, 1), (4294967295, 2)] :=
  ⟨[(0, 1), (4294967295, 2)], [(0, 1), (4294967295, 2)], by decide, by decide, fun _ => rfl, rfl⟩
theorem witness_LoadAfterStore :
    (∃ t, exec (.st 4 6 0) demo = .next t) ∧ (∃ t, exec (.sth 4 6 2) demo = .next t) ∧
      ∃ t, exec (.stb 4 6 3) demo = .next t := ⟨⟨_, rfl⟩, ⟨_, rfl⟩, ⟨_, rfl⟩⟩
theorem witness_StoredWordIsFetched : ∃ t, exec (.st 4 6 0x3FFC) demo = .next t := ⟨_, rfl⟩

theorem witness_StepRunsDecodedInstruction : demo.halted = false ∧ demo.pc.toNat % 4 = 0 ∧ Mapped demo demo.pc 4 ∧
    byteAt demo demo.pc 0 = some 0x05 ∧ byteAt demo demo.pc 1 = some 0x08 ∧ byteAt demo demo.pc 2 = some 0x86 ∧
    byteAt demo demo.pc 3 = some 0x00 ∧ decodeBytes .section7 true [0x05, 0x08, 0x86, 0x00] = .ok (.add 1 2 3) := by
  decide
/-- Halted; one past the mapped memory; a word of which no byte holds a value; bytes that are no instruction. -/
theorem witness_StepStopsBeforeExecution :
    ({ demo with halted := true } : State).halted = true ∧
    ((demo.setPc 0x3000).halted = false ∧ (demo.setPc 0x3000).pc.toNat % 4 = 0 ∧ ¬ Mapped (demo.setPc 0x3000) 0x3000 4) ∧
    (Mapped (demo.setPc 0x2FFC) 0x2FFC 4 ∧ ∃ k < 4, byteAt (demo.setPc 0x2FFC) 0x2FFC k = none) ∧
    (Mapped (demo.setPc 0x1000) 0x1000 4 ∧ byteAt (demo.setPc 0x1000) 0x1000 0 = some 0x80 ∧
      byteAt (demo.setPc 0x1000) 0x1000 1 = some 1 ∧ byteAt (demo.setPc 0x1000) 0x1000 2 = some 0xFF ∧
      byteAt (demo.setPc 0x1000) 0x1000 3 = some 0x7F ∧
      decodeWord .section7 true (0x80#8 ++ 1#8 ++ 0xFF#8 ++ 0x7F#8) = .error .unassignedOpcode) := by
  decide
theorem witness_StepRunsPlacedWord : State.reset.halted = false ∧ State.reset.pc.toNat % 4 = 0 ∧
    Mapped State.reset State.reset.pc 4 := by decide

theorem witness_AluCommonRule : (Instr.ule : Reg → Reg → Reg → Instr) ∈
    [Instr.add, .sub, .mul, .and, .or, .xor, .sll, .srl, .sra, .eq, .neq, .slt, .ult, .sle, .ule] := by simp
/-- A comparison that holds and one that does not, a target in reach, and a `CMP_TRUE` that is not zero. -/
theorem witness_ComparisonsDriveConditions : demo.params.wf ∧
    (demo.readReg 4).toInt < (demo.readReg 3).toInt ∧ ¬ (demo.readReg 4).toNat < (demo.readReg 3).toNat ∧
    (relTarget demo 0x1FFC).toNat % 4 = 0 := by decide
theorem witness_ConditionalMoveResults : (demo.readReg 1).toNat = 0 ∧ (demo.readReg 4).toNat ≠ 0 := by decide

/-- The last byte, half-word and word of the address space, through `r4` = 0xFFFFFFFF and negative displacements; the
bytes are those of `witness_MemReadIsBigEndian`. -/
theorem witness_LoadResults : effAddr demo 4 0 = 0xFFFFFFFF ∧ effAddr demo 4 0x3FFF = 0xFFFFFFFE ∧
    effAddr demo 4 0x3FFD = 0xFFFFFFFC := by decide
/-- Misaligned; one past the mapped memory; mapped without a value. -/
theorem witness_LoadStops : IsLoad (.ldhs 1 4 0) 1 4 0 ∧ (effAddr demo 4 0).toNat % loadBytes (.ldhs 1 4 0) ≠ 0 ∧
    (effAddr demo 5 0).toNat % 4 = 0 ∧ ¬ Mapped demo (effAddr demo 5 0) 4 ∧ Mapped demo (effAddr demo 5 0x3FFF) 1 ∧
    (∃ k < 1, byteAt demo (effAddr demo 5 0x3FFF) k = none) := by
  refine ⟨.inr (.inl rfl), ?_⟩; decide
/-- Misaligned; one past the mapped memory; the last byte of the code region. -/
theorem witness_StoreStops : IsStore (.stb 1 7 3) 1 7 3 ∧ (effAddr demo 7 2).toNat % storeBytes (.st 1 7 2) ≠ 0 ∧
    ¬ Mapped demo (effAddr demo 5 0) 1 ∧ Mapped demo (effAddr demo 7 3) 1 ∧ ¬ OutsideCode demo (effAddr demo 7 3) 1 := by
  refine ⟨.inr (.inr rfl), ?_⟩; decide
theorem witness_CompletedAccessesAreAligned :
    (∃ t, exec (.ld 1 4 0x3FFD) demo = .next t) ∧ (∃ t, exec (.st 1 6 0) demo = .next t) ∧
    (∃ t, exec (.ldhu 1 4 0x3FFF) demo = .next t) ∧ (∃ t, exec (.sth 1 6 0) demo = .next t) :=
  ⟨⟨_, rfl⟩, ⟨_, rfl⟩, ⟨_, rfl⟩, ⟨_, rfl⟩⟩

theorem witness_NopAndHaltResults : (demo.setPc 0xFFFFFFFC).pc = 0xFFFFFFFC#32 := by decide
theorem witness_AbsoluteTransfers : (0xFFFFFC : BitVec 24).toNat % 4 = 0 ∧ (0xFFFFFD : BitVec 24).toNat % 4 ≠ 0 := by
  decide
theorem witness_RegisterTransfers : (demo.readReg 2).toNat % 4 = 0 ∧ (2 : Reg) ≠ 3 ∧ (demo.readReg 4).toNat % 4 ≠ 0 ∧
    (4 : Reg) ≠ 3 := by decide
theorem witness_CallR3Refused : fetch (demo.setPc 0x1000) = .ok 0x8001FF7F := by rfl
theorem witness_ConditionalJumps : (demo.readReg 1).toNat = 0 ∧ (demo.readReg 4).toNat ≠ 0 ∧
    (relTarget demo 0x2000).toNat % 4 = 0 ∧ (relTarget demo 0x1FFF).toNat % 4 ≠ 0 := by decide
theorem witness_ReturnAfterCall : demo.pc.toNat % 4 = 0 ∧ (∃ t, exec (.callAbs 0xFFFFFC) demo = .next t) ∧
    ∃ t, exec (.callReg 2) demo = .next t := ⟨by decide, ⟨_, rfl⟩, ⟨_, rfl⟩⟩
theorem witness_WellFormedTransfersComplete : demo.pc.toNat % 4 = 0 ∧ (Instr.callAbs 0xFFFFFC).wellFormed = true ∧
    (Instr.jumpnz 4 0x2000).wellFormed = true := by decide
/-- The nearest and farthest labels in reach, and the first one out of reach. -/
theorem witness_AssembledBranchReachesLabel : relField .zero 0x20FC 0x100 = some 0x1FFC ∧
    relField .four 0xFFFFE104 0x100 = some 0x2000 ∧ relField .zero 0x2100 0x100 = none ∧ (0x20FC : Word).toNat % 4 = 0 ∧
    demo.pc = 0x100 ∧ demo.readReg 1 = 0#32 ∧ demo.readReg 4 ≠ 0#32 := by decide

theorem witness_StepKeepsInvariant : StepInv demo ∧ ∃ t, step demo = .next t := ⟨by decide, _, rfl⟩
theorem witness_LaunchHasInvariant : LaunchWf demoLaunch := demoLaunch_wf
theorem witness_PcStaysAligned : demo.pc.extractLsb' 0 2 = 0#2 ∧
    ∃ t, Host.Core.run Sys2Proof.core 1 demo = .next t ∧ t.halted = false := ⟨by decide, _, rfl, by decide⟩
/-- Also for ValuesPersistInMappedMemory: one step of the core, a code address, and a byte without a value. -/
theorem witness_CodeBytesNeverChange : (∃ t, Host.Core.run Sys2Proof.core 1 demo = .next t) ∧
    inRegions demo.params.codeRegion 0x103 = true ∧ demo.mem.read 0x103 ≠ none ∧ demo.mem.read 0x104 = none :=
  ⟨⟨_, rfl⟩, by decide, by decide, by decide⟩
/-- ValuesPersistInMappedMemory's second clause: a run of one step that gives a byte its first value. -/
theorem witness_ValuesPersist : bytesAfter (run1 0x100 [(1, 7), (2, 0x2000)] [] 0x15008200) 0x2000 1 = [some 7] ∧
    ((start 0x100 [(1, 7), (2, 0x2000)] []).withFetchWord 32 0x15008200).mem.read 0x2000 = none := by decide
/-- A next state; a move not taken either way; two states that agree on the sources only; a fault; a refusal. -/
theorem witness_RegistersReadAndWritten : (∃ t, exec (.add 1 2 3) demo = .next t) ∧ dest (.add 1 2 3) ≠ some 2 ∧
    demo.readReg 4 ≠ 0#32 ∧ (∃ t, exec (.movz 2 4 3) demo = .next t) ∧ demo.readReg 1 = 0#32 ∧
    (∃ t, exec (.movnz 2 1 3) demo = .next t) ∧ AgreeOn (sources (.add 1 2 3)) demo (demo.writeReg 9 9) ∧
    (∃ f, exec (.ld 1 5 0) demo = .fault f) ∧ (∃ r, exec (.callReg 3) demo = .refused r) :=
  ⟨⟨_, rfl⟩, by decide, by decide, ⟨_, rfl⟩, by decide, ⟨_, rfl⟩,
    ⟨by decide, rfl, rfl, rfl, rfl⟩, ⟨_, rfl⟩, ⟨_, rfl⟩⟩
theorem witness_WhatOnlySomeInstructionsChange : (∃ t, exec (.add 1 2 3) demo = .next t) ∧
    storeBytes (.add 1 2 3) = 0 ∧ Instr.add 1 2 3 ≠ .halt ∧ transfersControl (.add 1 2 3) = false :=
  ⟨⟨_, rfl⟩, by decide, by decide, by decide⟩
theorem witness_WhichInstructionsStop : (∃ f, exec (.jumpAbs 2) demo = .fault f) ∧
    (∃ f, exec (.st 1 7 1) demo = .fault f) ∧ (∃ f, exec (.ld 1 5 0) demo = .fault f) ∧
    (∃ f, exec (.ldbu 1 6 0) demo = .fault f) ∧ (∃ r, exec (.st 1 7 0) demo = .refused r) ∧
    (∃ r, exec (.callReg 3) demo = .refused r) := ⟨⟨_, rfl⟩, ⟨_, rfl⟩, ⟨_, rfl⟩, ⟨_, rfl⟩, ⟨_, rfl⟩, ⟨_, rfl⟩⟩
theorem witness_OpcodeParameters : ∃ t, exec (.ldhs 1 4 0x3FFF) demo = .next t := ⟨_, rfl⟩

end Sys2Proof.Tests
end

section
/-! SUPPORT. Runs of the machine, the bytes of a word in memory, and the image a launch makes: the rules that the
statements about the scope of the model (spec/00_scope.md) rest on. -/

namespace Sys2Proof.Machine

/-! ### Runs -/

/-- A run of one more step is a step and the run from where it leads. -/
theorem run_succ_next {k : Nat} {s t : State} (h : Host.Core.run Sys2Proof.core (k + 1) s = .next t) :
    ∃ u, step s = .next u ∧ Host.Core.run Sys2Proof.core k u = .next t := by
  cases hs : Sys2Proof.core.step s with
  | next u => exact ⟨u, hs, by simpa [Host.Core.run, hs] using h⟩
  | fault f => simp [Host.Core.run, hs] at h
  | refused r => simp [Host.Core.run, hs] at h

/-- What every step keeps, every run keeps. -/
theorem run_keeps {P : State → Prop} (hstep : ∀ s t, P s → step s = .next t → P t) {k : Nat} {s t : State}
    (hs : P s) (h : Host.Core.run Sys2Proof.core k s = .next t) : P t := by
  induction k generalizing s with
  | zero => cases h; exact hs
  | succ k ih =>
    obtain ⟨u, hu, ht⟩ := run_succ_next h
    exact ih (hstep s u hs hu) ht

/-! ### What no instruction changes -/

/-- No effect of an instruction touches the parameters (log entry 1). -/
theorem Effect.params_eq {i : Instr} {s t : State} (h : Effect i s t) : t.params = s.params := by
  cases h <;> rfl

/-- No effect of an instruction touches a byte of `CODE_REGION`: a store that goes on lies outside it (R46). -/
theorem Effect.read_eq_of_inCode {i : Instr} {s t : State} {a : Nat} (h : Effect i s t)
    (ha : inRegions s.params.codeRegion a = true) : t.mem.read a = s.mem.read a := by
  cases h with
  | stored b v _ _ _ _ hc =>
    have hout : a ∉ accessAddrs b (storeBytes i) := fun hmem => List.any_eq_false.mp hc a hmem ha
    exact Memory.read_writeAll_of_notMem s.mem hout
  | _ => rfl

/-- A step that goes on has the effect of the instruction it ran. -/
theorem step_effect {s t : State} (h : step s = .next t) : ∃ i, Effect i s t := by
  obtain ⟨_, _, i, _, _, hexec⟩ := step_next h
  exact ⟨i, exec_effect hexec⟩

/-- The parameters and the bytes of the code region of `s` are in `t` what they are in `s`. -/
def SameCode (s t : State) : Prop :=
  t.params = s.params ∧ ∀ a, inRegions s.params.codeRegion a = true → t.mem.read a = s.mem.read a

theorem SameCode.refl (s : State) : SameCode s s := ⟨rfl, fun _ _ => rfl⟩

theorem SameCode.trans {s t u : State} (h : SameCode s t) (h' : SameCode t u) : SameCode s u :=
  ⟨h'.1.trans h.1, fun a ha => (h'.2 a (h.1 ▸ ha)).trans (h.2 a ha)⟩

theorem step_sameCode {s t : State} (h : step s = .next t) : SameCode s t := by
  obtain ⟨i, heff⟩ := step_effect h
  exact ⟨heff.params_eq, fun a ha => heff.read_eq_of_inCode ha⟩

theorem run_sameCode {k : Nat} {s t : State} (h : Host.Core.run Sys2Proof.core k s = .next t) : SameCode s t :=
  run_keeps (P := SameCode s) (fun _ _ hs hstep => hs.trans (step_sameCode hstep)) (SameCode.refl s) h

/-! ### The addresses of an access -/

/-- The statements' spelling of the addresses of an access is the model's (R32). -/
theorem accessAddrs_eq_addrsOf (a : Word) (n : Nat) : accessAddrs a n = addrsOf a n := by
  induction n generalizing a with
  | zero => rfl
  | succ n ih =>
    have hnext (k : Nat) : a + 1#32 + BitVec.ofNat 32 k = a + BitVec.ofNat 32 (k + 1) := by
      rw [BitVec.add_assoc, Nat.add_comm k 1, BitVec.ofNat_add]
    simp only [accessAddrs, ih, addrsOf, List.range_succ_eq_map, List.map_cons, List.map_map, Function.comp_def, hnext,
      BitVec.add_zero, Nat.succ_eq_add_one]

/-- `Mapped` is the check of the address map that `memRead` and `memWrite` make (R41). -/
theorem mapped_iff {s : State} {a : Word} {n : Nat} :
    Mapped s a n ↔ (accessAddrs a n).all (inRegions s.params.memMap) = true := by
  simp only [List.all_eq_true, mem_accessAddrs]
  constructor
  · rintro h _ ⟨k, hk, rfl⟩
    exact h k hk
  · exact fun h k hk => h _ ⟨k, hk, rfl⟩

/-- `accessAligned` is the natural alignment of R35. -/
theorem accessAligned_iff {a : Word} {n : Nat} : accessAligned a n = true ↔ a.toNat % n = 0 := by
  simp [accessAligned]

/-- An aligned word does not run over the end of the address space: its four addresses are consecutive (R35). -/
theorem mem_accessAddrs_word {w : Word} {x : Nat} (h : w.toNat % 4 = 0) :
    x ∈ accessAddrs w 4 ↔ w.toNat ≤ x ∧ x < w.toNat + 4 := by
  have hw := w.isLt
  have hadd : ∀ k < 4, (w + BitVec.ofNat 32 k).toNat = w.toNat + k := fun k hk => by
    rw [BitVec.toNat_add, BitVec.toNat_ofNat]; omega
  rw [mem_accessAddrs]
  constructor
  · rintro ⟨k, hk, rfl⟩
    rw [hadd k hk]; omega
  · rintro ⟨hlo, hhi⟩
    exact ⟨x - w.toNat, by omega, by rw [hadd _ (by omega)]; omega⟩

/-- Two aligned words at different addresses have no byte in common. -/
theorem notMem_accessAddrs_of_ne {w w' : Word} {x : Nat} (h : w.toNat % 4 = 0) (h' : w'.toNat % 4 = 0) (hne : w ≠ w')
    (hx : x ∈ accessAddrs w 4) : x ∉ accessAddrs w' 4 := by
  rw [mem_accessAddrs_word h] at hx
  rw [mem_accessAddrs_word h']
  have : w.toNat ≠ w'.toNat := fun e => hne (BitVec.eq_of_toNat_eq e)
  omega

/-- No access names an address twice, unless it is longer than the address space. -/
theorem accessAddrs_nodup (a : Word) {n : Nat} (hn : n ≤ 4294967296) : (accessAddrs a n).Nodup := by
  rw [accessAddrs_eq_addrsOf]
  refine List.nodup_range.map_on fun j hj k hk e => ?_
  have hof : BitVec.ofNat 32 j = BitVec.ofNat 32 k := BitVec.add_right_inj a |>.mp (BitVec.eq_of_toNat_eq e)
  rw [List.mem_range] at hj hk
  have := congrArg BitVec.toNat hof
  simp only [BitVec.toNat_ofNat] at this
  omega

/-! ### Byte order -/

/-- One bit of the number that the bytes of `v`, read after the number `acc`, spell. -/
theorem getLsbD_foldl_toBigEndian (n : Nat) (v acc : Word) {k : Nat} (hk : k < 32) :
    ((toBigEndian n v).foldl (fun (x : Word) (b : Byte) => (x <<< 8) ||| b.setWidth 32) acc).getLsbD k =
      if k < 8 * n then v.getLsbD k else acc.getLsbD (k - 8 * n) := by
  induction n generalizing acc with
  | zero => simp [toBigEndian]
  | succ n ih =>
    simp only [toBigEndian, List.foldl_cons, ih, BitVec.getLsbD_or, BitVec.getLsbD_shiftLeft, BitVec.getLsbD_setWidth,
      BitVec.getLsbD_extractLsb']
    rcases Nat.lt_or_ge k (8 * n) with hlow | hhigh
    · simp [hlow, show k < 8 * (n + 1) by omega]
    · rcases Nat.lt_or_ge k (8 * (n + 1)) with hbyte | habove
      · have hin : k - 8 * n < 8 := by omega
        simp [hbyte, hin, Nat.not_lt.mpr hhigh, show k - 8 * n < 32 by omega, Nat.add_sub_of_le hhigh]
      · have hout : ¬ k - 8 * n < 8 := by omega
        have hsub : k - 8 * n - 8 = k - 8 * (n + 1) := by omega
        simp [hout, Nat.not_lt.mpr hhigh, Nat.not_lt.mpr habove, show k - 8 * n < 32 by omega, hsub]

/-- One bit of what is read back of `n` bytes: the low `8n` bits survive, zeros stand above (R32, R33). -/
theorem getLsbD_bigEndian_toBigEndian (n : Nat) (v : Word) {k : Nat} (hk : k < 32) :
    (bigEndian (toBigEndian n v)).getLsbD k = (decide (k < 8 * n) && v.getLsbD k) := by
  rw [bigEndian, getLsbD_foldl_toBigEndian n v _ hk]
  split <;> simp_all

/-- The four bytes of a word, read back, are the word. -/
@[simp] theorem bigEndian_toBigEndian_word (v : Word) : bigEndian (toBigEndian 4 v) = v := by
  refine BitVec.eq_of_getLsbD_eq fun k hk => ?_
  rw [getLsbD_bigEndian_toBigEndian 4 v hk]
  simp [hk]

@[simp] theorem toBigEndian_length (n : Nat) (v : Word) : (toBigEndian n v).length = n := by
  induction n with
  | zero => rfl
  | succ n ih => simp [toBigEndian, ih]

/-! ### Placing bytes and words -/

theorem read_placeBytes_of_notMem {cs : List Host.Cell} {m : Memory} {a : Nat} (h : ∀ c ∈ cs, c.1 ≠ a) :
    (placeBytes m cs).read a = m.read a := by
  induction cs generalizing m with
  | nil => rfl
  | cons c cs ih =>
    obtain ⟨hc, hcs⟩ := List.forall_mem_cons.mp h
    rw [placeBytes, ih hcs, Memory.read_write_of_ne _ _ hc.symm]

theorem read_placeBytes_of_mem {cs : List Host.Cell} {m : Memory} {c : Host.Cell}
    (hd : cs.Pairwise fun c d => c.1 ≠ d.1) (hc : c ∈ cs) : (placeBytes m cs).read c.1 = some c.2 := by
  induction cs generalizing m with
  | nil => simp at hc
  | cons d cs ih =>
    obtain ⟨hne, hcs⟩ := List.pairwise_cons.mp hd
    rw [placeBytes]
    rcases List.mem_cons.mp hc with rfl | hc
    · rw [read_placeBytes_of_notMem fun e he => (hne e he).symm, Memory.read_write_same]
    · exact ih hcs hc

theorem read_placeWords_of_notMem {ws : List (Word × Word)} {m : Memory} {a : Nat}
    (h : ∀ p ∈ ws, a ∉ accessAddrs p.1 4) : (placeWords m ws).read a = m.read a := by
  induction ws generalizing m with
  | nil => rfl
  | cons p ws ih =>
    obtain ⟨hp, hws⟩ := List.forall_mem_cons.mp h
    rw [placeWords, ih hws, Memory.read_writeAll_of_notMem _ hp]

/-- Aligned words at different addresses do not overwrite each other: each is read back whole. -/
theorem readAll_placeWords_of_mem {ws : List (Word × Word)} {m : Memory} {p : Word × Word}
    (ha : ∀ q ∈ ws, q.1.toNat % 4 = 0) (hd : ws.Pairwise fun p q => p.1 ≠ q.1) (hp : p ∈ ws) :
    (placeWords m ws).readAll (accessAddrs p.1 4) = some (toBigEndian 4 p.2) := by
  induction ws generalizing m with
  | nil => simp at hp
  | cons q ws ih =>
    obtain ⟨hne, hws⟩ := List.pairwise_cons.mp hd
    obtain ⟨hq, haws⟩ := List.forall_mem_cons.mp ha
    rw [placeWords]
    rcases List.mem_cons.mp hp with rfl | hp
    · have hkept : ∀ x ∈ accessAddrs p.1 4, (placeWords (m.writeAll (accessAddrs p.1 4) (toBigEndian 4 p.2)) ws).read x =
          (m.writeAll (accessAddrs p.1 4) (toBigEndian 4 p.2)).read x := fun x hx =>
        read_placeWords_of_notMem fun r hr => notMem_accessAddrs_of_ne hq (haws r hr) (hne r hr) hx
      rw [Memory.readAll_congr hkept]
      exact Memory.readAll_writeAll m (accessAddrs_nodup _ (by omega)) (by simp [accessAddrs_length])
    · exact ih haws hws hp

/-! ### The image of a launch and its code region -/

/-- Outside the program and the data no byte of the image holds a value (R50). -/
theorem read_imageOf_of_notMem {i : MemInit} {a : Nat} (hp : ∀ p ∈ i.program, a ∉ accessAddrs p.1 4)
    (hd : ∀ c ∈ i.data, c.1 ≠ a) : (imageOf i).read a = none := by
  rw [imageOf, read_placeWords_of_notMem hp, read_placeBytes_of_notMem hd, Memory.read_nil]

/-- A byte of data outside the program is what the image holds at its address. -/
theorem read_imageOf_of_mem_data {i : MemInit} {c : Host.Cell} (hd : i.data.Pairwise fun c d => c.1 ≠ d.1)
    (hc : c ∈ i.data) (hp : ∀ p ∈ i.program, c.1 ∉ accessAddrs p.1 4) : (imageOf i).read c.1 = some c.2 := by
  rw [imageOf, read_placeWords_of_notMem hp, read_placeBytes_of_mem hd hc]

/-- Every entry of a proper image lies in the address map: it is a byte of the program or of the data (R41). -/
theorem inRegions_of_mem_imageOf {l : LaunchParams} (hl : LaunchWf l) {c : Host.Cell} (hc : c ∈ imageOf l.memInit) :
    inRegions l.memMap c.1 = true := by
  obtain ⟨_, _, hprog, hdata⟩ := hl
  by_contra hout
  have hread : (imageOf l.memInit).read c.1 = some c.2 := Memory.read_of_mem (imageOf_wf fun d hd => (hdata d hd).1) hc
  have hnone : (imageOf l.memInit).read c.1 = none := read_imageOf_of_notMem
    (fun p hp hmem => hout (List.all_eq_true.mp (hprog p hp).2 _ hmem))
    (fun d hd e => hout (e ▸ (hdata d hd).2))
  rw [hnone] at hread
  cases hread

/-- If the bytes of an aligned, mapped word are those of `w`, a fetch there gets `w` (R34). -/
theorem fetch_eq_of_readAll {s : State} {w : Word} (ha : s.pc.toNat % 4 = 0)
    (hm : (accessAddrs s.pc 4).all (inRegions s.params.memMap) = true)
    (hr : s.mem.readAll (accessAddrs s.pc 4) = some (toBigEndian 4 w)) : fetch s = .ok w := by
  simp [fetch, memRead, accessAligned_iff.mpr ha, hm, hr]

/-- The region of one aligned word holds the word's four addresses. -/
theorem regionHas_word {w : Word} {x : Nat} (h : w.toNat % 4 = 0) :
    regionHas ⟨w.toNat, 4⟩ x = true ↔ x ∈ addrsOf w 4 := by
  rw [← accessAddrs_eq_addrsOf, mem_accessAddrs_word h]
  simp [regionHas]

/-- The default `CODE_REGION` is made of the regions of the program's words (R3). -/
theorem inRegions_codeRegionOf {i : MemInit} {x : Nat} :
    inRegions (codeRegionOf i) x = true ↔ ∃ p ∈ i.program, regionHas ⟨p.1.toNat, 4⟩ x = true := by
  simp [inRegions, codeRegionOf]

/-- With aligned words the default `CODE_REGION` holds exactly the program's addresses. -/
theorem inRegions_codeRegionOf_iff {i : MemInit} {x : Nat} (h : ∀ p ∈ i.program, p.1.toNat % 4 = 0) :
    inRegions (codeRegionOf i) x = true ↔ ∃ p ∈ i.program, x ∈ addrsOf p.1 4 := by
  rw [inRegions_codeRegionOf]
  exact exists_congr fun p => and_congr_right fun hp => regionHas_word (h p hp)

/-! ### Stores into the code region -/

/-- A store of `n` bytes that is aligned, mapped and touches the code region is refused (R46, R235). -/
theorem store_refused {n : Nat} {v a : Reg} {im : BitVec 14} {s : State} {x : Nat}
    (ha : (effAddr s a im).toNat % n = 0) (hm : Mapped s (effAddr s a im) n) (hx : x ∈ addrsOf (effAddr s a im) n)
    (hc : inRegions s.params.codeRegion x = true) :
    store n v a im s = .refused (.codeWriteRefused (effAddr s a im) n) := by
  have hany : (accessAddrs (effAddr s a im) n).any (inRegions s.params.codeRegion) = true :=
    List.any_eq_true.mpr ⟨x, accessAddrs_eq_addrsOf _ _ ▸ hx, hc⟩
  simp [store, memWrite, accessAligned_iff.mpr ha, mapped_iff.mp hm, hany]

/-- The three stores share one meaning, at their widths (R194). -/
theorem exec_of_isStore {i : Instr} {v a : Reg} {im : BitVec 14} (h : IsStore i v a im) (s : State) :
    exec i s = store (storeBytes i) v a im s := by
  rcases h with rfl | rfl | rfl <;> rfl

/-! ### The invariant at the start of a run -/

theorem launch_stepInv {l : LaunchParams} (hl : LaunchWf l) : StepInv (State.launch l) := by
  have ⟨htrue, hpc, _, hdata⟩ := hl
  exact ⟨fun _ => hpc, imageOf_wf fun c hc => (hdata c hc).1, fun _ hc => inRegions_of_mem_imageOf hl hc, htrue⟩

/-- R3's own defaults are proper. -/
theorem launchWf_default : LaunchWf {} := ⟨by decide, by decide, nofun, nofun⟩

/-! ### The parameters that only the decoder reads -/

/-- `s` under another opcode map and another value of `STRICT_UNUSED` (R3). -/
def State.withDecoding (s : State) (m : OpcodeMap) (strict : Bool) : State :=
  { s with params := { s.params with opcodeMap := m, strictUnused := strict } }

section Decoding

variable {s t : State} (m : OpcodeMap) (strict : Bool)

theorem memWrite_withDecoding {a v : Word} {n : Nat} (h : memWrite s a n v = .next t) :
    memWrite (s.withDecoding m strict) a n v = .next (t.withDecoding m strict) := by
  obtain ⟨hal, hmap, hcode, rfl⟩ := memWrite_next h
  simp [memWrite, State.withDecoding, hal, hmap, hcode]

theorem transfer_withDecoding {a : Word} (h : transfer s a = .next t) :
    transfer (s.withDecoding m strict) a = .next (t.withDecoding m strict) := by
  obtain ⟨ha, rfl⟩ := transfer_next h
  simp [transfer, ha, State.withDecoding, State.setPc]

theorem load_withDecoding {n : Nat} {ext : Word → Word} {d a : Reg} {im : BitVec 14} (h : load n ext d a im s = .next t) :
    load n ext d a im (s.withDecoding m strict) = .next (t.withDecoding m strict) := by
  obtain ⟨v, hv, rfl⟩ := load_next h
  have hread : memRead (s.withDecoding m strict) (effAddr (s.withDecoding m strict) a im) n = .ok v := hv
  simp only [load, hread]
  rfl

theorem store_withDecoding {n : Nat} {v a : Reg} {im : BitVec 14} (h : store n v a im s = .next t) :
    store n v a im (s.withDecoding m strict) = .next (t.withDecoding m strict) := by
  rcases store_cases n v a im s with ⟨_, _, e⟩ | ⟨_, _, e⟩ | ⟨u, hu, e⟩ <;> rw [e] at h <;> cases h
  have hwrite : memWrite (s.withDecoding m strict) (effAddr (s.withDecoding m strict) a im) n
      ((s.withDecoding m strict).readReg v) = .next (u.withDecoding m strict) := memWrite_withDecoding m strict hu
  simp only [store, hwrite]
  rfl

theorem condMove_withDecoding {take : Bool} {d b : Reg} (h : condMove take d b s = .next t) :
    condMove take d b (s.withDecoding m strict) = .next (t.withDecoding m strict) := by
  cases take <;> cases h <;> rfl

theorem condJump_withDecoding {taken : Bool} {r : BitVec 14} (h : condJump taken r s = .next t) :
    condJump taken r (s.withDecoding m strict) = .next (t.withDecoding m strict) := by
  cases taken with
  | true => exact transfer_withDecoding m strict h
  | false => cases h; rfl

/-- An instruction that completes does the same under another opcode map and another `STRICT_UNUSED` (R4). -/
theorem exec_withDecoding {i : Instr} (h : exec i s = .next t) :
    exec i (s.withDecoding m strict) = .next (t.withDecoding m strict) := by
  cases i with
  | ld d a im | ldhs d a im | ldhu d a im | ldbs d a im | ldbu d a im => exact load_withDecoding m strict h
  | st v a im | sth v a im | stb v a im => exact store_withDecoding m strict h
  | movz d a b | movnz d a b => exact condMove_withDecoding m strict h
  | jumpz a r | jumpnz a r => exact condJump_withDecoding m strict h
  | jumpAbs a | jumpReg a | callAbs a => exact transfer_withDecoding m strict h
  | callReg a =>
    rcases execCallReg_cases a s with ⟨_, e⟩ | ⟨hne, e⟩
    · exact absurd (e.symm.trans h) nofun
    · rcases execCallReg_cases a (s.withDecoding m strict) with ⟨heq, _⟩ | ⟨_, e'⟩
      · exact absurd heq hne
      · exact e'.trans (transfer_withDecoding m strict (e.symm.trans h))
  | _ => cases h; rfl

end Decoding

end Sys2Proof.Machine
end

section
/-! PROOFS. The obligations about the scope of the model, each a short use of the rules above. -/

namespace Sys2Proof.Machine

/-- Settles O50, by induction over the run: `SameCode` holds at its start and every step keeps it. -/
theorem codeBytesNeverChange : Obligations.CodeBytesNeverChange :=
  fun _ _ _ h => run_sameCode h

/-- Settles O21, from what the image holds of each word and byte it was made of. -/
theorem launchPlacesProgram : Obligations.LaunchPlacesProgram := by
  intro l hl hprog hdata
  obtain ⟨_, _, hwords, _⟩ := hl
  have haligned : ∀ p ∈ l.memInit.program, p.1.toNat % 4 = 0 := fun p hp => (hwords p hp).1
  simp only [launch_mem, launch_params, ← accessAddrs_eq_addrsOf]
  refine ⟨fun p hp => ?_, fun c hc hout => read_imageOf_of_mem_data hdata hc hout,
    fun a hout hne => read_imageOf_of_notMem hout hne, fun hcode a => ?_⟩
  · exact fetch_eq_of_readAll (haligned p hp) (hwords p hp).2 (readAll_placeWords_of_mem haligned hprog hp)
  · simpa only [stepParams, hcode, accessAddrs_eq_addrsOf] using inRegions_codeRegionOf_iff haligned

/-- Settles O22: the run keeps the parameters of the launch, so its `CODE_REGION` still holds the word. -/
theorem launchedProgramIsGuarded : Obligations.LaunchedProgramIsGuarded := by
  intro l k s i v a im hcode hrun hstore haligned hmapped htouch
  obtain ⟨p, hp, hpa, x, hx, hxp⟩ := htouch
  have hregion : s.params.codeRegion = codeRegionOf l.memInit := by
    rw [(run_sameCode hrun).1, launch_params, ← hcode, stepParams]
  have hin : inRegions s.params.codeRegion x = true := by
    rw [hregion, inRegions_codeRegionOf]
    exact ⟨p, hp, (regionHas_word hpa).mpr hxp⟩
  rw [exec_of_isStore hstore]
  exact store_refused haligned hmapped hx hin

/-- Settles O55, by the case split of `exec_withDecoding` along the instructions. -/
theorem opcodeParametersDoNotChangeResults : Obligations.OpcodeParametersDoNotChangeResults :=
  fun _ _ t m strict h =>
    ⟨t.withDecoding m strict, exec_withDecoding m strict h, fun _ => rfl, fun _ => rfl, rfl, rfl, rfl⟩

/-- Settles O20: each clause is a field of the launch. -/
theorem resetRest : Obligations.ResetRest :=
  ⟨reset_eq_launch, rfl, rfl, Memory.read_nil, rfl, fun l => ⟨launch_pc l, launch_halted l, launch_params l⟩⟩

/-- Settles O48: the reset state is the launch of the defaults. -/
theorem launchHasInvariant : Obligations.LaunchHasInvariant :=
  ⟨reset_eq_launch ▸ launch_stepInv launchWf_default, fun _ hl => launch_stepInv hl⟩

end Sys2Proof.Machine
end

section
/-! SUPPORT. Instruction fetch and the step, control transfers, what an effect leaves unchanged, and the dependence of a
meaning on the registers: the rules that the statements about the state (spec/10_state.md) rest on. -/

namespace Sys2Proof.Machine

/-! ### The bytes of a word, and the fetch -/

/-- Shifting a byte in at the bottom is appending it (R32). -/
theorem shiftLeft_or_setWidth (v : Word) (b : Byte) : (v <<< 8) ||| b.setWidth 32 = (v ++ b).setWidth 32 := by
  refine BitVec.eq_of_getLsbD_eq fun k hk => ?_
  simp only [BitVec.getLsbD_or, BitVec.getLsbD_shiftLeft, BitVec.getLsbD_setWidth, BitVec.getLsbD_append, hk]
  by_cases hlow : k < 8
  · simp [hlow]
  · simp [hlow, BitVec.getLsbD_of_ge b k (by omega)]

/-- Four bytes in ascending address order spell their concatenation (R32, R34). -/
theorem bigEndian_four (b0 b1 b2 b3 : Byte) : bigEndian [b0, b1, b2, b3] = b0 ++ b1 ++ b2 ++ b3 := by
  refine BitVec.eq_of_getLsbD_eq fun k hk => ?_
  simp only [bigEndian, List.foldl_cons, List.foldl_nil, shiftLeft_or_setWidth, BitVec.getLsbD_setWidth,
    BitVec.getLsbD_append]
  grind

/-- A read of several bytes fails if one of them holds no value (R50). -/
theorem Memory.readAll_eq_none {m : Memory} {as : List Nat} {a : Nat} (ha : a ∈ as) (h : m.read a = none) :
    m.readAll as = none := by
  induction as with
  | nil => simp at ha
  | cons c as ih =>
    rcases List.mem_cons.mp ha with rfl | ha
    · simp [Memory.readAll, h]
    · simp [Memory.readAll, ih ha]

/-- The bytes of the word at `a`, where each holds a value. -/
theorem readAll_word {s : State} {a : Word} {b0 b1 b2 b3 : Byte} (h0 : byteAt s a 0 = some b0)
    (h1 : byteAt s a 1 = some b1) (h2 : byteAt s a 2 = some b2) (h3 : byteAt s a 3 = some b3) :
    s.mem.readAll (accessAddrs a 4) = some [b0, b1, b2, b3] := by
  have haddrs : addrsOf a 4 = [(a + BitVec.ofNat 32 0).toNat, (a + BitVec.ofNat 32 1).toNat,
    (a + BitVec.ofNat 32 2).toNat, (a + BitVec.ofNat 32 3).toNat] := rfl
  rw [byteAt] at h0 h1 h2 h3
  simp only [accessAddrs_eq_addrsOf, haddrs, Memory.readAll, h0, h1, h2, h3]

/-- A read of which some byte holds no value finds no bytes. -/
theorem readAll_eq_none_of_byteAt {s : State} {a : Word} {n : Nat} (h : ∃ k < n, byteAt s a k = none) :
    s.mem.readAll (accessAddrs a n) = none := by
  obtain ⟨k, hk, hnone⟩ := h
  exact Memory.readAll_eq_none (mem_accessAddrs.mpr ⟨k, hk, rfl⟩) hnone

section Fetch

variable {s : State} (ha : s.pc.toNat % 4 = 0)
include ha

theorem fetch_unmapped (hm : ¬ Mapped s s.pc 4) : fetch s = .error (.accessFault s.pc 4) := by
  rw [mapped_iff, Bool.not_eq_true] at hm
  simp [fetch, memRead, accessAligned_iff.mpr ha, hm]

theorem fetch_uninitialised (hm : Mapped s s.pc 4) (h : ∃ k < 4, byteAt s s.pc k = none) :
    fetch s = .error (.uninitialisedRead s.pc 4) := by
  simp [fetch, memRead, accessAligned_iff.mpr ha, mapped_iff.mp hm, readAll_eq_none_of_byteAt h]

theorem fetch_word {b0 b1 b2 b3 : Byte} (hm : Mapped s s.pc 4) (h0 : byteAt s s.pc 0 = some b0)
    (h1 : byteAt s s.pc 1 = some b1) (h2 : byteAt s s.pc 2 = some b2) (h3 : byteAt s s.pc 3 = some b3) :
    fetch s = .ok (bigEndian [b0, b1, b2, b3]) := by
  simp [fetch, memRead, accessAligned_iff.mpr ha, mapped_iff.mp hm, readAll_word h0 h1 h2 h3]

end Fetch

/-! ### The step, one equation per branch -/

theorem step_of_halted {s : State} (hh : s.halted = true) : step s = .fault .halted := by
  simp [step, hh, raise]

theorem step_of_fetch_error {s : State} {f : Fault} (hh : s.halted = false) (hf : fetch s = .error f) :
    step s = .fault f := by
  simp [step, hh, hf, raise]

theorem step_of_decode_error {s : State} {bits : Word} {e : DecodeError} (hh : s.halted = false)
    (hf : fetch s = .ok bits) (hd : decodeWord s.params.opcodeMap s.params.strictUnused bits = .error e) :
    step s = .fault (.illegalInstruction bits s.pc) := by
  simp [step, hh, hf, hd, raise]

theorem step_of_decode_ok {s : State} {bits : Word} {i : Instr} (hh : s.halted = false)
    (hf : fetch s = .ok bits) (hd : decodeWord s.params.opcodeMap s.params.strictUnused bits = .ok i) :
    step s = exec i s := by
  simp [step, hh, hf, hd]

/-! ### Alignment (R17, R21) -/

/-- `A + 4` is as aligned as `A`, the wrap included (R20). -/
theorem aligned_add_four {a : Word} (h : a.toNat % 4 = 0) : (a + 4#32).toNat % 4 = 0 := by
  rw [BitVec.toNat_add, BitVec.toNat_ofNat]; omega

/-- R17's spelling of an aligned `pc`. -/
theorem lowBits_eq_zero_iff {a : Word} : a.extractLsb' 0 2 = 0#2 ↔ a.toNat % 4 = 0 := by
  rw [← targetAligned_iff, targetAligned, beq_iff_eq]

/-! ### What the effect of an instruction changes -/

section Effect

variable {i : Instr} {s t : State}

/-- Only DST is written (R14). -/
theorem Effect.readReg_eq {r : Reg} (h : Effect i s t) (hr : dest i ≠ some r) : t.readReg r = s.readReg r := by
  have hne {d : Reg} (hd : dest i = some d) : r ≠ d := fun e => hr (e ▸ hd)
  cases h with
  | wrote d v hd => exact readReg_writeReg_of_ne s v (hne hd)
  | called a hd => exact readReg_writeReg_of_ne s _ (hne hd)
  | _ => rfl

/-- Only a store changes memory (R39, R196). -/
theorem Effect.mem_eq (h : Effect i s t) (hi : storeBytes i = 0) : t.mem = s.mem := by
  cases h with
  | stored a v _ _ hne => exact absurd hi hne
  | _ => rfl

/-- Only HALT changes `halted` (R101). -/
theorem Effect.halted_eq (h : Effect i s t) (hi : i ≠ .halt) : t.halted = s.halted := by
  cases h with
  | halts e => exact absurd e hi
  | _ => rfl

/-- Only a transfer takes `pc` elsewhere than to `A + 4` (R18). -/
theorem Effect.pc_eq (h : Effect i s t) (hi : transfersControl i = false) : t.pc = s.pc + 4#32 := by
  cases h with
  | jumped a ht => exact absurd (hi.symm.trans ht) nofun
  | called a _ ht => exact absurd (hi.symm.trans ht) nofun
  | _ => rfl

/-- `pc` goes to `A + 4` or to a target that R21 has checked. -/
theorem Effect.pc_aligned (h : Effect i s t) (hs : s.pc.toNat % 4 = 0) : t.pc.toNat % 4 = 0 := by
  cases h with
  | jumped a _ ha => exact (targetAligned_iff a).mp ha
  | called a _ _ ha => exact (targetAligned_iff a).mp ha
  | _ => exact aligned_add_four hs

theorem Effect.mem_wf (h : Effect i s t) (hs : s.mem.wf) : t.mem.wf := by
  cases h with
  | stored a v => exact Memory.writeAll_wf hs fun _ => accessAddrs_lt
  | _ => exact hs

/-- A store that goes on writes only addresses of `MEM_MAP` (R41). -/
theorem Effect.mem_mapped (h : Effect i s t) (hs : ∀ c ∈ s.mem, inRegions s.params.memMap c.1 = true) :
    ∀ c ∈ t.mem, inRegions t.params.memMap c.1 = true := by
  cases h with
  | stored a v _ _ _ hm =>
    intro c hc
    rcases Memory.mem_writeAll hc with hnew | hold
    · exact List.all_eq_true.mp hm c.1 hnew
    · exact hs c hold
  | _ => exact hs

end Effect

/-- The clause of the invariant on `pc` (R17, R28). -/
def PcAligned (s : State) : Prop := s.halted = false → s.pc.toNat % 4 = 0

theorem step_pcAligned {s t : State} (hs : PcAligned s) (h : step s = .next t) : PcAligned t := by
  obtain ⟨hrunning, _⟩ := step_next h
  obtain ⟨i, heff⟩ := step_effect h
  exact fun _ => heff.pc_aligned (hs hrunning)

/-! ### Control transfers -/

section Transfer

variable {i : Instr} {s : State} {a : Word}

/-- An aligned target is where `pc` goes (R21). -/
theorem transfer_of_aligned (ha : a.toNat % 4 = 0) : transfer s a = .next (s.setPc a) := by
  simp [transfer, (targetAligned_iff a).mpr ha]

theorem transfer_of_misaligned (ha : a.toNat % 4 ≠ 0) : transfer s a = .fault (.misalignedTarget a) := by
  have hfalse : targetAligned a = false := Bool.eq_false_iff.mpr (mt (targetAligned_iff a).mp ha)
  simp [transfer, hfalse, raise]

/-- An instruction that only transfers control goes to an aligned target. -/
theorem goesTo_of_transfer (he : exec i s = transfer s a) (ha : a.toNat % 4 = 0) : GoesTo i s a :=
  ⟨s.setPc a, he.trans (transfer_of_aligned ha), rfl, fun _ _ => rfl, fun _ _ => rfl, rfl, rfl⟩

/-- An instruction that only moves on goes to `A + 4`. -/
theorem goesTo_of_advance (he : exec i s = .next s.advance) : GoesTo i s (s.pc + 4#32) :=
  ⟨s.advance, he, rfl, fun _ _ => rfl, fun _ _ => rfl, rfl, rfl⟩

/-- An instruction that links and transfers control calls an aligned target. -/
theorem callsTo_of_transfer (he : exec i s = transfer (s.writeReg linkReg (s.pc + 4#32)) a) (ha : a.toNat % 4 = 0) :
    CallsTo i s a := by
  have hregs : SameRegsBut [3] s ((s.writeReg linkReg (s.pc + 4#32)).setPc a) := fun r hr =>
    readReg_writeReg_of_ne s _ (List.ne_of_not_mem_cons hr)
  exact ⟨_, he.trans (transfer_of_aligned ha), rfl, readReg_writeReg_same .., hregs, fun _ _ => rfl, rfl, rfl⟩

theorem GoesTo.completes_aligned (h : GoesTo i s a) (ha : a.toNat % 4 = 0) :
    ∃ t, exec i s = .next t ∧ t.pc.toNat % 4 = 0 := by
  obtain ⟨t, he, rfl, _⟩ := h
  exact ⟨t, he, ha⟩

theorem CallsTo.completes_aligned (h : CallsTo i s a) (ha : a.toNat % 4 = 0) :
    ∃ t, exec i s = .next t ∧ t.pc.toNat % 4 = 0 := by
  obtain ⟨t, he, rfl, _⟩ := h
  exact ⟨t, he, ha⟩

end Transfer

/-- The zero-extended ABS_ADDR is the same number (R72). -/
theorem zext24_eq_ofNat (t : BitVec 24) : zext24 t = BitVec.ofNat 32 t.toNat := by
  rw [zext24, ← BitVec.ofNat_toNat]

theorem toNat_zext24 (t : BitVec 24) : (zext24 t).toNat = t.toNat := by
  rw [zext24, BitVec.toNat_setWidth]; omega

theorem execCallReg_of_ne {a : Reg} (s : State) (h : a ≠ 3) :
    exec (.callReg a) s = transfer (s.writeReg linkReg (s.pc + 4#32)) (s.readReg a) :=
  if_neg h

/-- The condition of MOVZ and JUMPZ (R110, R221). -/
theorem isZero_iff {v : Word} : isZero v = true ↔ v.toNat = 0 := by
  rw [isZero, beq_iff_eq, ← BitVec.toNat_inj, BitVec.toNat_ofNat]

theorem isZero_eq_false_iff {v : Word} : isZero v = false ↔ v.toNat ≠ 0 := by
  rw [← Bool.not_eq_true, isZero_iff]

section CondJump

variable {i : Instr} {s : State} {taken : Bool} {r : BitVec 14}

theorem condJump_taken (he : exec i s = condJump taken r s) (ht : taken = true) :
    exec i s = transfer s (relTarget s r) := by rw [he, ht]; rfl

theorem condJump_notTaken (he : exec i s = condJump taken r s) (ht : taken = false) : GoesTo i s (s.pc + 4#32) :=
  goesTo_of_advance (by rw [he, ht]; rfl)

end CondJump

/-- The number COND_JUMP_BASE (R3). -/
theorem toNat_condJumpBase (b : CondJumpBase) : (condJumpBase b).toNat = if b = .four then 4 else 0 := by
  cases b <;> rfl

/-- The target of a conditional jump in exact arithmetic modulo 2^32 (R220). -/
theorem relTarget_exact (s : State) (r : BitVec 14) :
    ((relTarget s r).toNat : Int) =
      (s.pc.toNat + (if s.params.condJumpBase = .four then 4 else 0) + r.toInt) % 2 ^ 32 := by
  have hbase := toNat_condJumpBase s.params.condJumpBase
  have hsext : (sext14 r).toInt = r.toInt := BitVec.toInt_signExtend_of_le (by omega)
  have hmod : ((sext14 r).toNat : Int) = r.toInt % 2 ^ 32 := by
    rw [← hsext, BitVec.toInt_eq_toNat_cond]; split <;> omega
  have hsplit : (if s.params.condJumpBase = .four then 4 else 0 : Int) =
      (condJumpBase s.params.condJumpBase).toNat := by
    rw [hbase]; split <;> rfl
  simp only [relTarget, BitVec.toNat_add, hsplit]
  omega

/-- A well-formed ABS_ADDR is a multiple of 4 (R72). -/
theorem absAddrAligned_iff {x : BitVec 24} : absAddrAligned x = true ↔ x.toNat % 4 = 0 := by
  simp only [absAddrAligned, beq_iff_eq, ← BitVec.toNat_inj, BitVec.extractLsb'_toNat]
  simp

/-- A well-formed ABS_ADDR names an aligned target. -/
theorem zext24_aligned {x : BitVec 24} (h : absAddrAligned x = true) : (zext24 x).toNat % 4 = 0 := by
  rw [toNat_zext24]; exact absAddrAligned_iff.mp h

/-- A well-formed REL14 is a multiple of 4 (R73). -/
theorem relAddrAligned_iff {r : BitVec 14} : relAddrAligned r = true ↔ r.toInt % 4 = 0 := by
  have hnat : relAddrAligned r = true ↔ r.toNat % 4 = 0 := by
    simp only [relAddrAligned, beq_iff_eq, ← BitVec.toNat_inj, BitVec.extractLsb'_toNat]
    simp
  rw [hnat, BitVec.toInt_eq_toNat_cond]
  split <;> omega

/-- From an aligned `pc` a well-formed REL14 leads to an aligned target, for either base. -/
theorem relTarget_aligned {s : State} {r : BitVec 14} (hpc : s.pc.toNat % 4 = 0) (hr : relAddrAligned r = true) :
    (relTarget s r).toNat % 4 = 0 := by
  have hexact := relTarget_exact s r
  have hmul := relAddrAligned_iff.mp hr
  split at hexact <;> omega

/-- From an aligned `pc` a conditional jump with a well-formed REL14 completes, taken or not. -/
theorem condJump_completes_aligned {i : Instr} {s : State} {taken : Bool} {r : BitVec 14}
    (he : exec i s = condJump taken r s) (hpc : s.pc.toNat % 4 = 0) (hr : relAddrAligned r = true) :
    ∃ t, exec i s = .next t ∧ t.pc.toNat % 4 = 0 := by
  have htarget := relTarget_aligned hpc hr
  cases ht : taken with
  | true => exact (goesTo_of_transfer (condJump_taken he ht) htarget).completes_aligned htarget
  | false => exact (condJump_notTaken he ht).completes_aligned (aligned_add_four hpc)

/-- A conditional move that does not move keeps DST (R110, R111). -/
theorem condMove_keeps {take : Bool} {d b : Reg} {s t : State} (htake : take = false)
    (h : condMove take d b s = .next t) : t.readReg d = s.readReg d := by
  subst htake; cases h; rfl

/-! ### States that differ in their registers only -/

/-- `s` with other registers. -/
def State.withRegs (s : State) (regs : Vector Word 32) : State := { s with regs := regs }

/-- States that agree on everything but registers outside `rs` are one state with two register files. -/
theorem AgreeOn.eq_withRegs {rs : List Reg} {s s' : State} (h : AgreeOn rs s s') : s' = s.withRegs s'.regs := by
  obtain ⟨_, hpc, hmem, hhalted, hparams⟩ := h
  cases s; cases s'; simp_all [State.withRegs]

/-- What R14 lets two completed executions of `i`, from `s` and from `s'`, differ in: registers other than DST, and DST
where a conditional move has kept it in both. -/
def AgreeButOthers (i : Instr) (s s' t t' : State) : Prop :=
  AgreeAfter t t' ∧ ∀ r, dest i = some r → t.readReg r = t'.readReg r ∨
    ((∃ a b, i = .movz r a b ∨ i = .movnz r a b) ∧ t.readReg r = s.readReg r ∧ t'.readReg r = s'.readReg r)

/-- Two outcomes of `i`: the same stop, or next states that differ as R14 allows. -/
inductive Alike (i : Instr) (s s' : State) : Result → Result → Prop where
  | fault (f : Fault) : Alike i s s' (.fault f) (.fault f)
  | refused (r : Refusal) : Alike i s s' (.refused r) (.refused r)
  | next {t t' : State} (h : AgreeButOthers i s s' t t') : Alike i s s' (.next t) (.next t')

section AlikeOutcomes

variable {i : Instr} {s s' : State} {o o' : Result}

theorem Alike.fault_eq {f : Fault} (h : Alike i s s' o o') (ho : o = .fault f) : o' = .fault f := by
  cases h <;> cases ho; rfl

theorem Alike.refused_eq {r : Refusal} (h : Alike i s s' o o') (ho : o = .refused r) : o' = .refused r := by
  cases h <;> cases ho; rfl

theorem Alike.next_agree {t : State} (h : Alike i s s' o o') (ho : o = .next t) :
    ∃ t', o' = .next t' ∧ AgreeButOthers i s s' t t' := by
  cases h <;> cases ho
  exact ⟨_, rfl, ‹_›⟩

end AlikeOutcomes

section Alike

variable {i : Instr} {s t t' : State} {regs : Vector Word 32}

/-- Next states that agree, DST included, are alike; a meaning without DST needs no more than `AgreeAfter`. -/
theorem alike_of_dest {d : Reg} {s' : State} (hd : dest i = some d) (h : AgreeAfter t t')
    (hv : t.readReg d = t'.readReg d) : Alike i s s' (.next t) (.next t') := by
  refine .next ⟨h, fun r hr => .inl ?_⟩
  obtain rfl : d = r := Option.some.inj (hd.symm.trans hr)
  exact hv

theorem alike_of_no_dest {s' : State} (hd : dest i = none) (h : AgreeAfter t t') : Alike i s s' (.next t) (.next t') :=
  .next ⟨h, fun _ hr => absurd (hd.symm.trans hr) nofun⟩

theorem alike_wrote {d : Reg} {v v' : Word} (hd : dest i = some d) (hv : v = v') :
    Alike i s (s.withRegs regs) (.next (s.writeReg d v).advance) (.next ((s.withRegs regs).writeReg d v').advance) :=
  alike_of_dest hd ⟨fun _ => rfl, rfl, rfl, rfl⟩ (by simp [hv])

theorem alike_advanced (hd : dest i = none) :
    Alike i s (s.withRegs regs) (.next s.advance) (.next (s.withRegs regs).advance) :=
  alike_of_no_dest hd ⟨fun _ => rfl, rfl, rfl, rfl⟩

/-- Transfers to one target: both stop at it, or both go there. -/
theorem alike_transfer {s' u u' : State} {a : Word}
    (h : Alike i s s' (.next (u.setPc a)) (.next (u'.setPc a))) : Alike i s s' (transfer u a) (transfer u' a) := by
  by_cases ha : a.toNat % 4 = 0
  · rwa [transfer_of_aligned ha, transfer_of_aligned ha]
  · rw [transfer_of_misaligned ha, transfer_of_misaligned ha]
    exact .fault _

theorem alike_jump {a a' : Word} (hd : dest i = none) (ha : a = a') :
    Alike i s (s.withRegs regs) (transfer s a) (transfer (s.withRegs regs) a') := by
  subst ha
  exact alike_transfer (alike_of_no_dest hd ⟨fun _ => rfl, rfl, rfl, rfl⟩)

theorem alike_call {a a' : Word} (hd : dest i = some linkReg) (ha : a = a') :
    Alike i s (s.withRegs regs) (transfer (s.writeReg linkReg (s.pc + 4#32)) a)
      (transfer ((s.withRegs regs).writeReg linkReg (s.pc + 4#32)) a') := by
  subst ha
  exact alike_transfer (alike_of_dest hd ⟨fun _ => rfl, rfl, rfl, rfl⟩ (by simp))

theorem alike_load {n : Nat} {ext : Word → Word} {d a : Reg} {im : BitVec 14} (hd : dest i = some d)
    (ha : s.readReg a = (s.withRegs regs).readReg a) :
    Alike i s (s.withRegs regs) (load n ext d a im s) (load n ext d a im (s.withRegs regs)) := by
  have haddr : effAddr (s.withRegs regs) a im = effAddr s a im := by rw [effAddr, ← ha, effAddr]
  have hread : memRead (s.withRegs regs) (effAddr (s.withRegs regs) a im) n = memRead s (effAddr s a im) n := by
    rw [haddr]; rfl
  simp only [load, hread]
  cases memRead s (effAddr s a im) n with
  | error f => exact .fault f
  | ok v => exact alike_wrote hd rfl

/-- `memWrite` looks at no register (R33). -/
theorem memWrite_withRegs (s : State) (regs : Vector Word 32) (a : Word) (n : Nat) (v : Word) :
    (∃ f, memWrite s a n v = .fault f ∧ memWrite (s.withRegs regs) a n v = .fault f) ∨
    (∃ r, memWrite s a n v = .refused r ∧ memWrite (s.withRegs regs) a n v = .refused r) ∨
    (∃ t, memWrite s a n v = .next t ∧ memWrite (s.withRegs regs) a n v = .next (t.withRegs regs)) := by
  rcases memWrite_cases s a n v with ⟨h1, e⟩ | ⟨h1, h2, e⟩ | ⟨h1, h2, h3, e⟩ | ⟨h1, h2, h3, e⟩
  · exact .inl ⟨_, e, by simp [memWrite, h1]⟩
  · exact .inl ⟨_, e, by simp [memWrite, State.withRegs, h1, h2]⟩
  · exact .inr (.inl ⟨_, e, by simp [memWrite, State.withRegs, h1, h2, h3]⟩)
  · exact .inr (.inr ⟨_, e, by simp [memWrite, State.withRegs, h1, h2, h3]⟩)

theorem alike_store {n : Nat} {v a : Reg} {im : BitVec 14} (hd : dest i = none)
    (ha : s.readReg a = (s.withRegs regs).readReg a) (hv : s.readReg v = (s.withRegs regs).readReg v) :
    Alike i s (s.withRegs regs) (store n v a im s) (store n v a im (s.withRegs regs)) := by
  have haddr : effAddr (s.withRegs regs) a im = effAddr s a im := by rw [effAddr, ← ha, effAddr]
  rw [store, store, haddr, ← hv]
  rcases memWrite_withRegs s regs (effAddr s a im) n (s.readReg v) with ⟨f, e, e'⟩ | ⟨r, e, e'⟩ | ⟨u, e, e'⟩
  · rw [e, e']; exact .fault f
  · rw [e, e']; exact .refused r
  · rw [e, e']; exact alike_of_no_dest hd ⟨fun _ => rfl, rfl, rfl, rfl⟩

theorem alike_condMove {take take' : Bool} {d b : Reg} (hd : dest i = some d)
    (hi : ∃ a b, i = .movz d a b ∨ i = .movnz d a b) (ht : take = take')
    (hb : s.readReg b = (s.withRegs regs).readReg b) :
    Alike i s (s.withRegs regs) (condMove take d b s) (condMove take' d b (s.withRegs regs)) := by
  subst ht
  cases take with
  | true => exact alike_wrote hd hb
  | false =>
    refine .next ⟨⟨fun _ => rfl, rfl, rfl, rfl⟩, fun r hr => .inr ?_⟩
    obtain rfl : d = r := Option.some.inj (hd.symm.trans hr)
    exact ⟨hi, rfl, rfl⟩

theorem alike_condJump {taken taken' : Bool} {r : BitVec 14} (hd : dest i = none) (ht : taken = taken') :
    Alike i s (s.withRegs regs) (condJump taken r s) (condJump taken' r (s.withRegs regs)) := by
  subst ht
  cases taken with
  | true => exact alike_jump hd rfl
  | false => exact alike_advanced hd

/-- The outcome of an instruction depends on no register but its sources (R14). -/
theorem exec_alike_withRegs (h : ∀ r ∈ sources i, s.readReg r = (s.withRegs regs).readReg r) :
    Alike i s (s.withRegs regs) (exec i s) (exec i (s.withRegs regs)) := by
  cases i with
  | nop => exact alike_advanced rfl
  | halt => exact alike_of_no_dest rfl ⟨nofun, rfl, rfl, rfl⟩
  | movsi d im => exact alike_wrote rfl rfl
  | movhi d im => exact alike_wrote rfl (congrArg (highHalf im) (h d (.head _)))
  | addi d a im => exact alike_wrote rfl (congrArg (· + sext14 im) (h a (.head _)))
  | ld d a im | ldhs d a im | ldhu d a im | ldbs d a im | ldbu d a im => exact alike_load rfl (h a (.head _))
  | st v a im | sth v a im | stb v a im => exact alike_store rfl (h a (.head _)) (h v (.tail _ (.head _)))
  | jumpAbs x => exact alike_jump rfl rfl
  | callAbs x => exact alike_call rfl rfl
  | jumpReg a => exact alike_jump rfl (h a (.head _))
  | callReg a =>
    by_cases hlink : a = 3
    · subst hlink; exact .refused _
    · rw [execCallReg_of_ne s hlink, execCallReg_of_ne _ hlink]
      exact alike_call rfl (h a (.head _))
  | jumpz a r | jumpnz a r => exact alike_condJump rfl (by rw [h a (.head _)])
  | movz d a b => exact alike_condMove rfl ⟨a, b, .inl rfl⟩ (by rw [h a (.head _)]) (h b (.tail _ (.head _)))
  | movnz d a b => exact alike_condMove rfl ⟨a, b, .inr rfl⟩ (by rw [h a (.head _)]) (h b (.tail _ (.head _)))
  | add d a b | sub d a b | mul d a b | and d a b | or d a b | xor d a b | sll d a b | srl d a b | sra d a b =>
    exact alike_wrote rfl (by rw [h a (.head _), h b (.tail _ (.head _))])
  | eq d a b | neq d a b | slt d a b | ult d a b | sle d a b | ule d a b =>
    exact alike_wrote rfl (by rw [h a (.head _), h b (.tail _ (.head _))]; rfl)

end Alike

/-- The same, of any two states that agree as R14 asks. -/
theorem exec_alike {i : Instr} {s s' : State} (h : AgreeOn (sources i) s s') :
    Alike i s s' (exec i s) (exec i s') := by
  have heq := h.eq_withRegs
  obtain ⟨hregs, _⟩ := h
  generalize s'.regs = regs at heq
  subst heq
  exact exec_alike_withRegs hregs

end Sys2Proof.Machine
end

section
/-! PROOFS. The obligations about the state and the step (spec/10_state.md), each a short use of the rules above. -/

namespace Sys2Proof.Machine

/-- Settles O47, one clause of the invariant at a time, from the effect of the instruction that the step ran. -/
theorem stepKeepsInvariant : Obligations.StepKeepsInvariant := by
  intro s t ⟨hpc, hwf, hmapped, htrue⟩ hstep
  obtain ⟨i, heff⟩ := step_effect hstep
  exact ⟨step_pcAligned hpc hstep, heff.mem_wf hwf, heff.mem_mapped hmapped, heff.params_eq ▸ htrue⟩

/-- Settles O40: JUMP is a transfer to the zero-extended field, CALL the same from the state with the link. -/
theorem absoluteTransfers : Obligations.AbsoluteTransfers := by
  intro s t
  rw [← zext24_eq_ofNat, ← toNat_zext24]
  exact ⟨fun ha => ⟨goesTo_of_transfer rfl ha, callsTo_of_transfer rfl ha⟩,
    fun ha => ⟨transfer_of_misaligned ha, transfer_of_misaligned ha⟩⟩

/-- Settles O41: as O40, with the target in SRC; SRC other than `r3` keeps CALL from being refused. -/
theorem registerTransfers : Obligations.RegisterTransfers := fun s _ =>
  ⟨fun ha => ⟨goesTo_of_transfer rfl ha, fun hne => callsTo_of_transfer (execCallReg_of_ne s hne) ha⟩,
    fun ha => ⟨transfer_of_misaligned ha, fun hne => (execCallReg_of_ne s hne).trans (transfer_of_misaligned ha)⟩⟩

/-- Settles O43: each jump is `condJump` of its condition, taken or not. -/
theorem conditionalJumps : Obligations.ConditionalJumps := by
  intro s a r
  refine ⟨relTarget_exact s r, fun hzero => ?_, fun hnonzero => ?_⟩
  · have hz : isZero (s.readReg a) = true := isZero_iff.mpr hzero
    have htaken : exec (.jumpz a r) s = transfer s (relTarget s r) := condJump_taken rfl hz
    exact ⟨condJump_notTaken rfl (by rw [hz]; rfl), goesTo_of_transfer htaken,
      fun ha => htaken.trans (transfer_of_misaligned ha)⟩
  · have hz : isZero (s.readReg a) = false := isZero_eq_false_iff.mpr hnonzero
    have htaken : exec (.jumpnz a r) s = transfer s (relTarget s r) := condJump_taken rfl (by rw [hz]; rfl)
    exact ⟨condJump_notTaken rfl hz, goesTo_of_transfer htaken, fun ha => htaken.trans (transfer_of_misaligned ha)⟩

/-- Settles O45: with a well-formed field every target, and from an aligned `pc` also `A + 4`, is aligned. -/
theorem wellFormedTransfersComplete : Obligations.WellFormedTransfersComplete := by
  rintro i s hwf hpc (⟨x, rfl | rfl⟩ | ⟨a, r, rfl | rfl⟩)
  · exact (goesTo_of_transfer rfl (zext24_aligned hwf)).completes_aligned (zext24_aligned hwf)
  · exact (callsTo_of_transfer rfl (zext24_aligned hwf)).completes_aligned (zext24_aligned hwf)
  · exact condJump_completes_aligned rfl hpc hwf
  · exact condJump_completes_aligned rfl hpc hwf

/-- Settles O49, by induction over the run with the invariant's clause on `pc`. -/
theorem pcStaysAligned : Obligations.PcStaysAligned := by
  intro k s t hs hrun hrunning
  have hstart : PcAligned s := fun _ => lowBits_eq_zero_iff.mp hs
  exact lowBits_eq_zero_iff.mpr (run_keeps (fun _ _ => step_pcAligned) hstart hrun hrunning)

/-- Settles O52: the writes from the effect, the reads from two register files that agree on the sources. -/
theorem registersReadAndWritten : Obligations.RegistersReadAndWritten := by
  refine ⟨fun i s t h r hr => (exec_effect h).readReg_eq hr, fun s t d a b => ⟨fun hne h => ?_, fun heq h => ?_⟩,
    fun i s s' hagree => ?_⟩
  · exact condMove_keeps (beq_eq_false_iff_ne.mpr hne) h
  · exact condMove_keeps (by rw [heq]; rfl) h
  · have halike := exec_alike hagree
    exact ⟨fun _ => halike.fault_eq, fun _ => halike.refused_eq, fun _ => halike.next_agree⟩

/-- Settles O53: each clause is a fact about the effect. -/
theorem whatOnlySomeInstructionsChange : Obligations.WhatOnlySomeInstructionsChange := by
  intro i s t h
  have heff := exec_effect h
  exact ⟨fun hi a _ => by rw [heff.mem_eq hi], heff.halted_eq, fun _ => heff.pc_eq, heff.params_eq⟩

/-- Settles O16: the fetch gets the four bytes, in the order in which `decodeBytes` reads them. -/
theorem stepRunsDecodedInstruction : Obligations.StepRunsDecodedInstruction :=
  fun _ _ _ _ _ _ hh ha hm h0 h1 h2 h3 hd => step_of_decode_ok hh (fetch_word ha hm h0 h1 h2 h3) hd

/-- Settles O17: what the fetch or the decoder answers is what the step stops with. -/
theorem stepStopsBeforeExecution : Obligations.StepStopsBeforeExecution := by
  refine ⟨fun s => step_of_halted, fun s hh ha hm => step_of_fetch_error hh (fetch_unmapped ha hm),
    fun s hh ha hm hnone => step_of_fetch_error hh (fetch_uninitialised ha hm hnone), ?_⟩
  intro s b0 b1 b2 b3 e hh ha hm h0 h1 h2 h3 hd
  rw [← bigEndian_four] at hd ⊢
  exact step_of_decode_error hh (fetch_word ha hm h0 h1 h2 h3) hd

/-- Settles O19: reset is a launch, and a launch zeroes the registers. -/
theorem resetZeroesRegisters : Obligations.ResetZeroesRegisters :=
  ⟨fun r => reset_eq_launch ▸ launch_readReg {} r, launch_readReg⟩

/-- Settles O39: NOP is an advance, which wraps at the top; HALT's next state is halted, so it has no step. -/
theorem nopAndHaltResults : Obligations.NopAndHaltResults := by
  refine ⟨fun s => goesTo_of_advance rfl, fun s htop => ?_, fun s => ?_⟩
  · have hwrap : s.pc + 4#32 = 0#32 := by rw [htop]; rfl
    exact hwrap ▸ goesTo_of_advance rfl
  · exact ⟨_, rfl, rfl, fun _ _ => rfl, fun _ _ => rfl, rfl, step_of_halted rfl⟩

end Sys2Proof.Machine
end

section
/-! SUPPORT. The fields of an encoded word, the reads and writes of memory branch by branch, and what they give of each
other: the rules that the statements about decoding and memory (spec/20_memory.md) rest on. -/

namespace Sys2Proof

/-! ### The fields of an encoded word (R61 to R73) -/

section Fields

variable {m : OpcodeMap} {i : Instr}

/-- A field of an encoded word is found in the operand bits. -/
theorem field_eq {lo l : Nat} {x : BitVec l} (hl : lo + l ≤ 24)
    (h : ∀ k < l, (operandBits i).getLsbD (lo + k) = x.getLsbD k) : (encode m i).extractLsb' lo l = x := by
  refine BitVec.eq_of_getLsbD_eq fun k hk => ?_
  rw [BitVec.getLsbD_extractLsb', Laws.getLsbD_encode, if_pos (by omega), h k hk, decide_eq_true hk, Bool.true_and]

/-- The fields of F-RRR (R63). -/
theorem fields_rrr {d a b : Reg} (h : operandBits i = bitsRRR d a b) :
    (encode m i).extractLsb' 19 5 = regBits d ∧ (encode m i).extractLsb' 14 5 = regBits a ∧
      (encode m i).extractLsb' 9 5 = regBits b := by
  refine ⟨field_eq (by omega) ?_, field_eq (by omega) ?_, field_eq (by omega) ?_⟩ <;>
    grind [Laws.getLsbD_bitsRRR]

/-- The fields of F-MI (R64, R70). -/
theorem fields_mi {d : Reg} {im : BitVec 19} (h : operandBits i = bitsMI d im) :
    (encode m i).extractLsb' 19 5 = im.extractLsb' 14 5 ∧ (encode m i).extractLsb' 14 5 = regBits d ∧
      (encode m i).extractLsb' 0 14 = im.extractLsb' 0 14 := by
  refine ⟨field_eq (by omega) ?_, field_eq (by omega) ?_, field_eq (by omega) ?_⟩ <;>
    grind [Laws.getLsbD_bitsMI]

/-- The fields of the formats with a split 14-bit immediate (R65, R66, R69, R71, R73). -/
theorem fields_split14 {hi lo : BitVec 5} {im : BitVec 14} (h : operandBits i = bitsSplit14 hi lo im) :
    (encode m i).extractLsb' 19 5 = im.extractLsb' 9 5 ∧ (encode m i).extractLsb' 14 5 = hi ∧
      (encode m i).extractLsb' 9 5 = lo ∧ (encode m i).extractLsb' 0 9 = im.extractLsb' 0 9 := by
  refine ⟨field_eq (by omega) ?_, field_eq (by omega) ?_, field_eq (by omega) ?_, field_eq (by omega) ?_⟩ <;>
    grind [Laws.getLsbD_bitsSplit14]

/-- The field of F-JR (R68). -/
theorem field_jr {a : Reg} (h : operandBits i = bitsJR a) : (encode m i).extractLsb' 9 5 = regBits a := by
  refine field_eq (by omega) ?_
  grind [Laws.getLsbD_bitsJR]

/-- Bits 23:0 are the operand bits; in F-J they are the one field (R67, R72). -/
theorem absAddrField_encode (m : OpcodeMap) (i : Instr) : absAddrField (encode m i) = operandBits i :=
  field_eq (by omega) fun k _ => by rw [Nat.zero_add]

/-- A word whose five bits from `lo` are those of `r` names `r` there (R74). -/
theorem regField_eq {w : Word} {lo : Nat} {r : Reg} (h : w.extractLsb' lo 5 = regBits r) : regField w lo = r :=
  congrArg BitVec.toFin h

/-- The two pieces of a 19-bit immediate, put together again (R70). -/
theorem simm19Field_eq {w : Word} {im : BitVec 19} (hhi : w.extractLsb' 19 5 = im.extractLsb' 14 5)
    (hlo : w.extractLsb' 0 14 = im.extractLsb' 0 14) : simm19Field w = im := by
  rw [simm19Field, hhi, hlo]
  exact (BitVec.extractLsb'_append_extractLsb'_eq_extractLsb' (by rfl)).trans BitVec.extractLsb'_eq_self

/-- The two pieces of a 14-bit immediate, put together again (R71, R73). -/
theorem simm14Field_eq {w : Word} {im : BitVec 14} (hhi : w.extractLsb' 19 5 = im.extractLsb' 9 5)
    (hlo : w.extractLsb' 0 9 = im.extractLsb' 0 9) : simm14Field w = im := by
  rw [simm14Field, hhi, hlo]
  exact (BitVec.extractLsb'_append_extractLsb'_eq_extractLsb' (by rfl)).trans BitVec.extractLsb'_eq_self

/-! ### Reading the operands back, one rule per format

Each is about an instruction whose constructor is `c`. -/

theorem instrOfFields_encode_rrr {d a b : Reg} {c : Reg → Reg → Reg → Instr}
    (hc : ∀ w, instrOfFields (opOf i) w = c (regField w 19) (regField w 14) (regField w 9))
    (h : operandBits i = bitsRRR d a b) : instrOfFields (opOf i) (encode m i) = c d a b := by
  obtain ⟨hd, ha, hb⟩ := fields_rrr (m := m) h
  rw [hc, regField_eq hd, regField_eq ha, regField_eq hb]

theorem instrOfFields_encode_mi {d : Reg} {im : BitVec 19} {c : Reg → BitVec 19 → Instr}
    (hc : ∀ w, instrOfFields (opOf i) w = c (regField w 14) (simm19Field w))
    (h : operandBits i = bitsMI d im) : instrOfFields (opOf i) (encode m i) = c d im := by
  obtain ⟨hhi, hd, hlo⟩ := fields_mi (m := m) h
  rw [hc, regField_eq hd, simm19Field_eq hhi hlo]

/-- F-RI and F-ST. -/
theorem instrOfFields_encode_split14 {d a : Reg} {im : BitVec 14} {c : Reg → Reg → BitVec 14 → Instr}
    (hc : ∀ w, instrOfFields (opOf i) w = c (regField w 9) (regField w 14) (simm14Field w))
    (h : operandBits i = bitsSplit14 (regBits a) (regBits d) im) :
    instrOfFields (opOf i) (encode m i) = c d a im := by
  obtain ⟨hhi, ha, hd, hlo⟩ := fields_split14 (m := m) h
  rw [hc, regField_eq hd, regField_eq ha, simm14Field_eq hhi hlo]

theorem instrOfFields_encode_cj {a : Reg} {r : BitVec 14} {c : Reg → BitVec 14 → Instr}
    (hc : ∀ w, instrOfFields (opOf i) w = c (regField w 14) (simm14Field w))
    (h : operandBits i = bitsSplit14 (regBits a) 0#5 r) : instrOfFields (opOf i) (encode m i) = c a r := by
  obtain ⟨hhi, ha, _, hlo⟩ := fields_split14 (m := m) h
  rw [hc, regField_eq ha, simm14Field_eq hhi hlo]

theorem instrOfFields_encode_j {t : BitVec 24} {c : BitVec 24 → Instr}
    (hc : ∀ w, instrOfFields (opOf i) w = c (absAddrField w)) (h : operandBits i = t) :
    instrOfFields (opOf i) (encode m i) = c t := by
  rw [hc, absAddrField_encode, h]

theorem instrOfFields_encode_jr {a : Reg} {c : Reg → Instr} (hc : ∀ w, instrOfFields (opOf i) w = c (regField w 9))
    (h : operandBits i = bitsJR a) : instrOfFields (opOf i) (encode m i) = c a := by
  rw [hc, regField_eq (field_jr h)]

end Fields

/-- The operands of an encoded instruction are read back from its word. -/
theorem instrOfFields_encode (m : OpcodeMap) (i : Instr) : instrOfFields (opOf i) (encode m i) = i := by
  cases i with
  | nop | halt => rfl
  | movsi d im | movhi d im => exact instrOfFields_encode_mi (fun _ => rfl) rfl
  | ld d a im | ldhs d a im | ldhu d a im | ldbs d a im | ldbu d a im | addi d a im =>
    exact instrOfFields_encode_split14 (fun _ => rfl) rfl
  | st v a im | sth v a im | stb v a im => exact instrOfFields_encode_split14 (fun _ => rfl) rfl
  | jumpAbs t | callAbs t => exact instrOfFields_encode_j (fun _ => rfl) rfl
  | jumpReg a | callReg a => exact instrOfFields_encode_jr (fun _ => rfl) rfl
  | jumpz a r | jumpnz a r => exact instrOfFields_encode_cj (fun _ => rfl) rfl
  | _ => exact instrOfFields_encode_rrr (fun _ => rfl) rfl

/-- An encoded instruction has zeros in its UNUSED fields, so that `STRICT_UNUSED` cannot reject it (R77). -/
theorem encode_and_unusedMask (m : OpcodeMap) (i : Instr) : encode m i &&& unusedMask (formatOf (opOf i)) = 0#32 := by
  cases i with
  | nop | halt => exact Laws.encode_and_spc m _ rfl rfl
  | movsi d im | movhi d im => exact Laws.encode_and_none m _ rfl
  | ld d a im | ldhs d a im | ldhu d a im | ldbs d a im | ldbu d a im | addi d a im =>
    exact Laws.encode_and_none m _ rfl
  | st v a im | sth v a im | stb v a im => exact Laws.encode_and_none m _ rfl
  | jumpAbs t | callAbs t => exact Laws.encode_and_none m _ rfl
  | jumpReg a | callReg a => exact Laws.encode_and_jr m _ a rfl rfl
  | jumpz a r | jumpnz a r => exact Laws.encode_and_cj m _ a r rfl rfl
  | _ => exact Laws.encode_and_rrr m _ _ _ _ rfl rfl

/-- The word of an instruction decodes to it, under the map it was encoded with (R90). -/
theorem decodeWord_encode (m : OpcodeMap) (strict : Bool) (i : Instr) : decodeWord m strict (encode m i) = .ok i := by
  simp [decodeWord, encode_and_unusedMask, instrOfFields_encode]

/-- Decoding the four bytes of a word is decoding the word (R34). -/
theorem decodeBytes_toBigEndian (m : OpcodeMap) (strict : Bool) (w : Word) :
    decodeBytes m strict (toBigEndian 4 w) = decodeWord m strict w :=
  congrArg (decodeWord m strict) (Machine.bigEndian_toBigEndian_word w)

end Sys2Proof

namespace Sys2Proof.Machine

/-! ### The bytes of an access -/

/-- `OutsideCode` is the check of `CODE_REGION` that `memWrite` makes (R46). -/
theorem outsideCode_iff {s : State} {a : Word} {n : Nat} :
    OutsideCode s a n ↔ (accessAddrs a n).any (inRegions s.params.codeRegion) = false := by
  simp only [List.any_eq_false, mem_accessAddrs, Bool.not_eq_true]
  constructor
  · rintro h _ ⟨k, hk, rfl⟩
    exact h k hk
  · exact fun h k hk => h _ ⟨k, hk, rfl⟩

/-- A byte of a piece of an access is a byte of the access. -/
theorem byteAt_add (s : State) (a : Word) (j k : Nat) : byteAt s (a + BitVec.ofNat 32 j) k = byteAt s a (j + k) := by
  rw [byteAt, byteAt, BitVec.ofNat_add, BitVec.add_assoc]

/-- A piece of a mapped access is mapped. -/
theorem Mapped.piece {s : State} {a : Word} {n j l : Nat} (h : Mapped s a n) (hj : j + l ≤ n) :
    Mapped s (a + BitVec.ofNat 32 j) l := fun k hk => by
  rw [BitVec.add_assoc, ← BitVec.ofNat_add]
  exact h (j + k) (by omega)

/-- What a read of several bytes found at one of their addresses. -/
theorem Memory.read_of_readAll {m : Memory} {as : List Nat} {bs : List Byte} {k a : Nat} (h : m.readAll as = some bs)
    (ha : as[k]? = some a) : m.read a = bs[k]? := by
  induction as generalizing bs k with
  | nil => simp at ha
  | cons c as ih =>
    simp only [Memory.readAll] at h
    split at h
    · next b bs' hb hbs =>
      cases h
      cases k with
      | zero => simp_all
      | succ k => simpa using ih hbs (by simpa using ha)
    · cases h

theorem accessAddrs_getElem? (a : Word) {n k : Nat} (hk : k < n) :
    (accessAddrs a n)[k]? = some (a + BitVec.ofNat 32 k).toNat := by
  simp [accessAddrs_eq_addrsOf, addrsOf, hk]

/-- The byte that stands `k` places behind the most significant one (R33). -/
theorem toBigEndian_getElem? (v : Word) {n k : Nat} (hk : k < n) :
    (toBigEndian n v)[k]? = some (v.extractLsb' (8 * (n - 1 - k)) 8) := by
  induction n generalizing k with
  | zero => omega
  | succ n ih =>
    cases k with
    | zero => rfl
    | succ k =>
      rw [toBigEndian, List.getElem?_cons_succ, ih (by omega)]
      congr 3; omega

/-! ### Bytes and the values they spell -/

/-- One byte spells itself (R32). -/
theorem bigEndian_one (b : Byte) : bigEndian [b] = b.setWidth 32 := by simp [bigEndian]

/-- Two bytes in ascending address order spell their concatenation (R32). -/
theorem bigEndian_two (b0 b1 : Byte) : bigEndian [b0, b1] = (b0 ++ b1).setWidth 32 := by
  refine BitVec.eq_of_getLsbD_eq fun k hk => ?_
  simp only [bigEndian, List.foldl_cons, List.foldl_nil, shiftLeft_or_setWidth, BitVec.getLsbD_setWidth,
    BitVec.getLsbD_append]
  grind

/-- The low bits of a value survive being stored and read back (R32, R33). -/
theorem extractLsb'_bigEndian_toBigEndian (v : Word) {n : Nat} (hn : n ≤ 4) :
    (bigEndian (toBigEndian n v)).extractLsb' 0 (8 * n) = v.extractLsb' 0 (8 * n) := by
  refine BitVec.eq_of_getLsbD_eq fun k hk => ?_
  simp only [BitVec.getLsbD_extractLsb', Nat.zero_add, getLsbD_bigEndian_toBigEndian n v (show k < 32 by omega)]
  simp [hk]

/-- A concatenation of bytes of `v` that stand side by side is the piece of `v` they make up. -/
theorem halfWord_of_bytes (v : Word) (lo : Nat) :
    v.extractLsb' (lo + 8) 8 ++ v.extractLsb' lo 8 = v.extractLsb' lo 16 :=
  BitVec.extractLsb'_append_extractLsb'_eq_extractLsb' rfl

/-! ### `memRead`, one equation per branch -/

section MemRead

variable {s : State} {a : Word} {n : Nat}

theorem memRead_misaligned (ha : a.toNat % n ≠ 0) : memRead s a n = .error (.misalignedAccess a n) := by
  have hfalse : accessAligned a n = false := Bool.eq_false_iff.mpr (mt accessAligned_iff.mp ha)
  simp [memRead, hfalse]

theorem memRead_unmapped (ha : a.toNat % n = 0) (hm : ¬ Mapped s a n) : memRead s a n = .error (.accessFault a n) := by
  rw [mapped_iff, Bool.not_eq_true] at hm
  simp [memRead, accessAligned_iff.mpr ha, hm]

theorem memRead_uninitialised (ha : a.toNat % n = 0) (hm : Mapped s a n) (h : ∃ k < n, byteAt s a k = none) :
    memRead s a n = .error (.uninitialisedRead a n) := by
  simp [memRead, accessAligned_iff.mpr ha, mapped_iff.mp hm, readAll_eq_none_of_byteAt h]

theorem memRead_value {bs : List Byte} (ha : a.toNat % n = 0) (hm : Mapped s a n)
    (h : s.mem.readAll (accessAddrs a n) = some bs) : memRead s a n = .ok (bigEndian bs) := by
  simp [memRead, accessAligned_iff.mpr ha, mapped_iff.mp hm, h]

theorem memRead_byte {b : Byte} (hm : Mapped s a 1) (h : byteAt s a 0 = some b) :
    memRead s a 1 = .ok (b.setWidth 32) := by
  have hread : s.mem.readAll (accessAddrs a 1) = some [b] := by
    simp_all [byteAt, accessAddrs, Memory.readAll]
  rw [memRead_value (Nat.mod_one _) hm hread, bigEndian_one]

theorem memRead_halfWord {b0 b1 : Byte} (ha : a.toNat % 2 = 0) (hm : Mapped s a 2) (h0 : byteAt s a 0 = some b0)
    (h1 : byteAt s a 1 = some b1) : memRead s a 2 = .ok ((b0 ++ b1).setWidth 32) := by
  have hread : s.mem.readAll (accessAddrs a 2) = some [b0, b1] := by
    simp_all [byteAt, accessAddrs, Memory.readAll]
  rw [memRead_value ha hm hread, bigEndian_two]

theorem memRead_word {b0 b1 b2 b3 : Byte} (ha : a.toNat % 4 = 0) (hm : Mapped s a 4) (h0 : byteAt s a 0 = some b0)
    (h1 : byteAt s a 1 = some b1) (h2 : byteAt s a 2 = some b2) (h3 : byteAt s a 3 = some b3) :
    memRead s a 4 = .ok (b0 ++ b1 ++ b2 ++ b3) := by
  rw [memRead_value ha hm (readAll_word h0 h1 h2 h3), bigEndian_four]

/-- A byte read never stops for alignment (R35). -/
theorem memRead_byte_ne_misaligned {x : Word} {k : Nat} : memRead s a 1 ≠ .error (.misalignedAccess x k) := by
  have haligned : accessAligned a 1 = true := accessAligned_iff.mpr (Nat.mod_one _)
  rcases memRead_cases s a 1 with ⟨h, _⟩ | ⟨_, _, e⟩ | ⟨_, _, _, e⟩ | ⟨_, _, _, _, e⟩
  · exact absurd (haligned.symm.trans h) nofun
  all_goals rw [e]; nofun

end MemRead

/-! ### `memWrite`, one equation per branch, and what a write that completes has done -/

section MemWrite

variable {s t : State} {a v : Word} {n : Nat}

theorem memWrite_misaligned (ha : a.toNat % n ≠ 0) : memWrite s a n v = .fault (.misalignedAccess a n) := by
  have hfalse : accessAligned a n = false := Bool.eq_false_iff.mpr (mt accessAligned_iff.mp ha)
  simp [memWrite, hfalse]

theorem memWrite_unmapped (ha : a.toNat % n = 0) (hm : ¬ Mapped s a n) :
    memWrite s a n v = .fault (.accessFault a n) := by
  rw [mapped_iff, Bool.not_eq_true] at hm
  simp [memWrite, accessAligned_iff.mpr ha, hm]

theorem memWrite_completes (ha : a.toNat % n = 0) (hm : Mapped s a n) (hc : OutsideCode s a n) :
    ∃ t, memWrite s a n v = .next t := by
  simp [memWrite, accessAligned_iff.mpr ha, mapped_iff.mp hm, outsideCode_iff.mp hc]

/-- A byte write never stops for alignment (R35). -/
theorem memWrite_byte_ne_misaligned {x : Word} {k : Nat} : memWrite s a 1 v ≠ .fault (.misalignedAccess x k) := by
  have haligned : accessAligned a 1 = true := accessAligned_iff.mpr (Nat.mod_one _)
  rcases memWrite_cases s a 1 v with ⟨h, _⟩ | ⟨_, _, e⟩ | ⟨_, _, _, e⟩ | ⟨_, _, _, e⟩
  · exact absurd (haligned.symm.trans h) nofun
  all_goals rw [e]; nofun

/-- Nothing but the written bytes changes (R33). -/
theorem memWrite_frame (h : memWrite s a n v = .next t) : Frame [] (addrsOf a n) s t ∧ t.pc = s.pc := by
  obtain ⟨_, _, _, rfl⟩ := memWrite_next h
  have hbytes : SameBytesBut (addrsOf a n) s { s with mem := s.mem.writeAll (accessAddrs a n) (toBigEndian n v) } :=
    fun x hx => Memory.read_writeAll_of_notMem _ (accessAddrs_eq_addrsOf a n ▸ hx)
  exact ⟨⟨fun _ _ => rfl, hbytes, rfl, rfl⟩, rfl⟩

/-- The address of a completed write is aligned, and after it as mapped as before (R35, R41). -/
theorem memWrite_aligned_mapped (h : memWrite s a n v = .next t) : a.toNat % n = 0 ∧ Mapped t a n := by
  obtain ⟨haligned, hmapped, _, rfl⟩ := memWrite_next h
  exact ⟨accessAligned_iff.mp haligned, mapped_iff.mpr hmapped⟩

/-- The bytes of the written value stand at the written addresses. -/
theorem readAll_memWrite (hn : n ≤ 4294967296) (h : memWrite s a n v = .next t) :
    t.mem.readAll (accessAddrs a n) = some (toBigEndian n v) := by
  obtain ⟨_, _, _, rfl⟩ := memWrite_next h
  exact Memory.readAll_writeAll s.mem (accessAddrs_nodup a hn) (by simp [accessAddrs_length])

theorem byteAt_memWrite {k : Nat} (hn : n ≤ 4294967296) (h : memWrite s a n v = .next t) (hk : k < n) :
    byteAt t a k = some (v.extractLsb' (8 * (n - 1 - k)) 8) :=
  (Memory.read_of_readAll (readAll_memWrite hn h) (accessAddrs_getElem? a hk)).trans (toBigEndian_getElem? v hk)

/-- A read where a write has been gives the low bytes of the value (R43). -/
theorem memRead_memWrite (hn : n ≤ 4294967296) (h : memWrite s a n v = .next t) :
    memRead t a n = .ok (bigEndian (toBigEndian n v)) := by
  obtain ⟨haligned, hmapped⟩ := memWrite_aligned_mapped h
  exact memRead_value haligned hmapped (readAll_memWrite hn h)

end MemWrite

/-! ### Memories in canonical form -/

/-- In canonical form the entries are the addresses with what they read as. -/
theorem Memory.mem_iff_read {m : Memory} (hm : m.wf) (c : Host.Cell) : c ∈ m ↔ m.read c.1 = some c.2 :=
  ⟨Memory.read_of_mem hm, Memory.mem_of_read⟩

theorem Memory.nodup {m : Memory} (hm : m.wf) : m.Nodup :=
  List.Pairwise.imp (fun hlt heq => ne_of_lt hlt (congrArg Prod.fst heq)) hm.1

/-- A byte that holds a value holds one after any write. -/
theorem Memory.read_writeAll_ne_none {m : Memory} {as : List Nat} {bs : List Byte} {x : Nat} (h : m.read x ≠ none) :
    (m.writeAll as bs).read x ≠ none := by
  induction as generalizing m bs with
  | nil => exact h
  | cons a as ih =>
    cases bs with
    | nil => exact h
    | cons b bs =>
      refine ih ?_
      rw [Memory.read_write]
      split
      · nofun
      · exact h

/-! ### Loads and stores -/

/-- The effective address in exact arithmetic modulo 2^32 (R40, R48). -/
theorem effAddr_exact (s : State) (a : Reg) (im : BitVec 14) :
    ((effAddr s a im).toNat : Int) = ((s.readReg a).toNat + im.toInt) % 2 ^ 32 := by
  have hsext : (sext14 im).toInt = im.toInt := BitVec.toInt_signExtend_of_le (by omega)
  have hmod : ((sext14 im).toNat : Int) = im.toInt % 2 ^ 32 := by
    rw [← hsext, BitVec.toInt_eq_toNat_cond]; split <;> omega
  rw [effAddr, BitVec.toNat_add]
  omega

/-- The unsigned half-word extension keeps the number of the low 16 bits (R172). -/
theorem toNat_zext16 (v : Word) : (zext16 v).toNat = v.toNat % 65536 := by
  rw [zext16, BitVec.toNat_setWidth, BitVec.extractLsb'_toNat, Nat.shiftRight_zero]; omega

/-- The unsigned byte extension keeps the number of the low 8 bits (R174). -/
theorem toNat_zext8 (v : Word) : (zext8 v).toNat = v.toNat % 256 := by
  rw [zext8, BitVec.toNat_setWidth, BitVec.extractLsb'_toNat, Nat.shiftRight_zero]; omega

/-- The low `n` bits as a signed number. -/
theorem toInt_extractLsb'_zero (v : Word) {n : Nat} (hn : n ≤ 32) :
    (v.extractLsb' 0 n).toInt = v.toInt.bmod (2 ^ n) := by
  rw [BitVec.toInt_extractLsb', BitVec.toInt_eq_toNat_bmod, Int.bmod_bmod_of_dvd (Nat.pow_dvd_pow 2 hn),
    Nat.shiftRight_zero]

/-- The signed half-word extension keeps the signed number of the low 16 bits (R173). -/
theorem toInt_sext16 (v : Word) : (sext16 v).toInt = v.toInt.bmod 65536 :=
  (BitVec.toInt_signExtend_of_le (by omega)).trans (toInt_extractLsb'_zero v (by omega))

/-- The signed byte extension keeps the signed number of the low 8 bits (R175). -/
theorem toInt_sext8 (v : Word) : (sext8 v).toInt = v.toInt.bmod 256 :=
  (BitVec.toInt_signExtend_of_le (by omega)).trans (toInt_extractLsb'_zero v (by omega))

section LoadStore

variable {i : Instr} {n : Nat} {ext : Word → Word} {d v a : Reg} {im : BitVec 14} {s t : State}

theorem load_of_error {f : Fault} (h : memRead s (effAddr s a im) n = .error f) :
    load n ext d a im s = .fault f := by
  simp [load, h, raise]

theorem store_of_fault {f : Fault} (h : memWrite s (effAddr s a im) n (s.readReg v) = .fault f) :
    store n v a im s = .fault f := by
  simp [store, h, raise]

/-- The five loads share one meaning, at their widths and with their extensions (R176). -/
theorem exec_of_isLoad (h : IsLoad i d a im) : ∃ ext, ∀ s, exec i s = load (loadBytes i) ext d a im s := by
  rcases h with rfl | rfl | rfl | rfl | rfl <;> exact ⟨_, fun _ => rfl⟩

/-- A load whose read answers writes the extended value to DST, and nothing else but `pc` (R176). -/
theorem writesReg_of_load {w : Word} {P : Word → Prop} (he : exec i s = load n ext d a im s)
    (hread : memRead s (effAddr s a im) n = .ok w) (hP : P (ext w)) : WritesReg i d s P := by
  have hexec : exec i s = .next (s.writeReg d (ext w)).advance := by rw [he]; simp [load, hread]
  have hdst : (s.writeReg d (ext w)).advance.readReg d = ext w := readReg_writeReg_same ..
  have hregs : SameRegsBut [d] s (s.writeReg d (ext w)).advance := fun r hr =>
    readReg_writeReg_of_ne s _ (List.ne_of_not_mem_cons hr)
  exact ⟨_, hexec, hdst.symm ▸ hP, rfl, hregs, fun _ _ => rfl, rfl, rfl⟩

/-- A load that completes had an aligned address (R35). -/
theorem load_next_aligned (h : load n ext d a im s = .next t) : (effAddr s a im).toNat % n = 0 := by
  obtain ⟨_, hread, _⟩ := load_next h
  obtain ⟨haligned, _⟩ := memRead_ok hread
  exact accessAligned_iff.mp haligned

/-- A store that completes had an aligned address (R35). -/
theorem store_next_aligned (h : store n v a im s = .next t) : (effAddr s a im).toNat % n = 0 := by
  obtain ⟨haligned, _⟩ := store_next h
  exact accessAligned_iff.mp haligned

theorem load_byte_ne_misaligned {x : Word} {k : Nat} : load 1 ext d a im s ≠ .fault (.misalignedAccess x k) := by
  rcases load_cases 1 ext d a im s with ⟨f, hread, e⟩ | ⟨_, _, e⟩ <;> rw [e]
  · rintro ⟨⟩
    exact memRead_byte_ne_misaligned hread
  · nofun

theorem store_byte_ne_misaligned {x : Word} {k : Nat} : store 1 v a im s ≠ .fault (.misalignedAccess x k) := by
  rcases store_cases 1 v a im s with ⟨f, hwrite, e⟩ | ⟨_, _, e⟩ | ⟨_, _, e⟩ <;> rw [e]
  · rintro ⟨⟩
    exact memWrite_byte_ne_misaligned hwrite
  · nofun
  · nofun

/-- After a store, a read of its width at its address gives the low bytes of the stored register (R43). -/
theorem memRead_store (hn : n ≤ 4294967296) (h : store n v a im s = .next t) :
    memRead t (effAddr s a im) n = .ok (bigEndian (toBigEndian n (s.readReg v))) := by
  rcases store_cases n v a im s with ⟨_, _, e⟩ | ⟨_, _, e⟩ | ⟨u, hu, e⟩ <;> rw [e] at h <;> cases h
  have hread := memRead_memWrite hn hu
  exact hread

/-- No store changes an effective address: it writes no register (R194). -/
theorem effAddr_store (h : store n v a im s = .next t) : effAddr t a im = effAddr s a im := by
  obtain ⟨_, _, _, rfl⟩ := store_next h
  rfl

/-- A load after a store of its width, through the same base and displacement, gives the low bytes of what was stored,
extended (R43, R49). -/
theorem writesReg_load_after_store {P : Word → Prop} (hn : n ≤ 4294967296) (h : store n v a im s = .next t)
    (he : exec i t = load n ext d a im t) (hP : P (ext (bigEndian (toBigEndian n (s.readReg v))))) :
    WritesReg i d t P :=
  writesReg_of_load he (effAddr_store h ▸ memRead_store hn h) hP

end LoadStore

/-! ### The bytes that hold a value -/

/-- From `s` to `t` no byte has lost its value, and only mapped bytes have gained one. -/
def ValuesGrow (s t : State) : Prop :=
  t.params = s.params ∧ (∀ a, s.mem.read a ≠ none → t.mem.read a ≠ none) ∧
    ∀ a, s.mem.read a = none → t.mem.read a ≠ none → inRegions s.params.memMap a = true

theorem ValuesGrow.of_mem_eq {s t : State} (hp : t.params = s.params) (hm : t.mem = s.mem) : ValuesGrow s t := by
  simp_all [ValuesGrow]

theorem ValuesGrow.trans {s t u : State} (h : ValuesGrow s t) (h' : ValuesGrow t u) : ValuesGrow s u := by
  obtain ⟨hp, hkept, hgained⟩ := h
  obtain ⟨hp', hkept', hgained'⟩ := h'
  refine ⟨hp'.trans hp, fun a ha => hkept' a (hkept a ha), fun a hs hu => ?_⟩
  by_cases ht : t.mem.read a = none
  · exact hp ▸ hgained' a ht hu
  · exact hgained a hs ht

/-- Only a store gives values to bytes, and it writes mapped ones (R41). -/
theorem Effect.valuesGrow {i : Instr} {s t : State} (h : Effect i s t) : ValuesGrow s t := by
  cases h with
  | stored b v _ _ _ hm =>
    refine ⟨rfl, fun a => Memory.read_writeAll_ne_none, fun a hs ht => ?_⟩
    have hmem : a ∈ accessAddrs b (storeBytes i) := by
      by_contra hout
      exact ht ((Memory.read_writeAll_of_notMem s.mem hout).trans hs)
    exact List.all_eq_true.mp hm a hmem
  | _ => exact .of_mem_eq rfl rfl

theorem run_valuesGrow {k : Nat} {s t : State} (h : Host.Core.run Sys2Proof.core k s = .next t) : ValuesGrow s t := by
  refine run_keeps (P := ValuesGrow s) (fun u u' hu hstep => ?_) (.of_mem_eq rfl rfl) h
  obtain ⟨_, heff⟩ := step_effect hstep
  exact hu.trans heff.valuesGrow

end Sys2Proof.Machine
end

section
/-! PROOFS. The obligations about decoding and memory (spec/20_memory.md), each a short use of the rules above. -/

namespace Sys2Proof.Machine

/-- Settles O1: the four bytes spell the encoded word again, and the word decodes to its instruction. -/
theorem decodeOfEncodedBytes : Obligations.DecodeOfEncodedBytes := fun m strict i =>
  (decodeBytes_toBigEndian m strict (encode m i)).trans (decodeWord_encode m strict i)

/-- Settles O10, one width at a time. -/
theorem memReadIsBigEndian : Obligations.MemReadIsBigEndian :=
  fun _ _ _ _ _ _ => ⟨memRead_byte, memRead_halfWord, memRead_word⟩

/-- Settles O11: the write completes, and a write that completes has put each byte in its place. -/
theorem memWriteIsBigEndian : Obligations.MemWriteIsBigEndian := by
  intro s a v
  refine ⟨fun hm hc => ?_, fun ha hm hc => ?_, fun ha hm hc => ?_⟩
  · obtain ⟨t, h⟩ := memWrite_completes (v := v) (Nat.mod_one _) hm hc
    exact ⟨t, h, byteAt_memWrite (by omega) h (by omega), memWrite_frame h⟩
  · obtain ⟨t, h⟩ := memWrite_completes (v := v) ha hm hc
    have hbyte {k : Nat} (hk : k < 2) := byteAt_memWrite (by omega) h hk
    exact ⟨t, h, hbyte (by omega), hbyte (by omega), memWrite_frame h⟩
  · obtain ⟨t, h⟩ := memWrite_completes (v := v) ha hm hc
    have hbyte {k : Nat} (hk : k < 4) := byteAt_memWrite (by omega) h hk
    exact ⟨t, h, hbyte (by omega), hbyte (by omega), hbyte (by omega), hbyte (by omega), memWrite_frame h⟩

/-- Settles O12: each piece is mapped and aligned, and its bytes are bytes of the word. -/
theorem wordReadBackInPieces : Obligations.WordReadBackInPieces := by
  intro s t a v h
  obtain ⟨haligned, hmapped⟩ := memWrite_aligned_mapped h
  have hbyte (j k : Nat) (hk : j + k < 4) :
      byteAt t (a + BitVec.ofNat 32 j) k = some (v.extractLsb' (8 * (4 - 1 - (j + k))) 8) :=
    (byteAt_add t a j k).trans (byteAt_memWrite (by omega) h hk)
  have hone (j : Nat) (hj : j < 4) := memRead_byte (hmapped.piece hj) (hbyte j 0 hj)
  have heven {j : Nat} (hj : j % 2 = 0) : (a + BitVec.ofNat 32 j).toNat % 2 = 0 := by
    rw [BitVec.toNat_add, BitVec.toNat_ofNat]; omega
  have htwo (j : Nat) (hj : j + 2 ≤ 4) (hj2 : j % 2 = 0) :=
    memRead_halfWord (heven hj2) (hmapped.piece hj) (hbyte j 0 (by omega)) (hbyte j 1 (by omega))
  have hupper := htwo 0 (by omega) rfl
  have hlower := htwo 2 (by omega) rfl
  have hfirst := hone 0 (by omega)
  rw [BitVec.add_zero] at hupper hfirst
  refine ⟨hfirst, hone 1 (by omega), hone 2 (by omega), hone 3 (by omega), ?_, ?_, ?_⟩
  · rw [hupper, ← halfWord_of_bytes v 16]
  · rw [hlower, ← halfWord_of_bytes v 0]
  · rw [memRead_memWrite (by omega) h, bigEndian_toBigEndian_word]

/-- Settles O13: the entries of both are the addresses with what they read as, in the order of the addresses. -/
theorem canonicalMemoriesEqual : Obligations.CanonicalMemoriesEqual := by
  intro m m' hm hm' hread
  have hentries : ∀ c, c ∈ m ↔ c ∈ m' := fun c => by
    rw [Memory.mem_iff_read hm, Memory.mem_iff_read hm', hread]
  have hperm : m.Perm m' := (List.perm_ext_iff_of_nodup (Memory.nodup hm) (Memory.nodup hm')).mpr hentries
  exact hperm.eq_of_pairwise (fun _ _ _ _ hlt hgt => absurd hlt (lt_asymm hgt)) hm.1 hm'.1

/-- Settles O14: the load reads the bytes stored, and its extension sees only their bits. -/
theorem loadAfterStore : Obligations.LoadAfterStore := by
  intro s t v a im d
  have hhalf : (bigEndian (toBigEndian 2 (s.readReg v))).extractLsb' 0 16 = (s.readReg v).extractLsb' 0 16 :=
    extractLsb'_bigEndian_toBigEndian _ (by omega)
  have hbyte : (bigEndian (toBigEndian 1 (s.readReg v))).extractLsb' 0 8 = (s.readReg v).extractLsb' 0 8 :=
    extractLsb'_bigEndian_toBigEndian _ (by omega)
  refine ⟨fun h => ?_, fun h => ⟨?_, ?_⟩, fun h => ⟨?_, ?_⟩⟩
  · exact writesReg_load_after_store (by omega) h rfl (bigEndian_toBigEndian_word _)
  · refine writesReg_load_after_store (by omega) h rfl ?_
    rw [zext16, hhalf]; exact toNat_zext16 _
  · refine writesReg_load_after_store (by omega) h rfl ?_
    rw [sext16, hhalf]; exact toInt_sext16 _
  · refine writesReg_load_after_store (by omega) h rfl ?_
    rw [zext8, hbyte]; exact toNat_zext8 _
  · refine writesReg_load_after_store (by omega) h rfl ?_
    rw [sext8, hbyte]; exact toInt_sext8 _

/-- Settles O15: the fetch is the read of the word that the store has written. -/
theorem storedWordIsFetched : Obligations.StoredWordIsFetched := fun _ _ _ _ _ h =>
  (memRead_store (by omega) h).trans (congrArg _ (bigEndian_toBigEndian_word _))

/-- Settles O36: the error of the read is the fault of the load. -/
theorem loadStops : Obligations.LoadStops := by
  intro i s d a im hload
  obtain ⟨ext, hexec⟩ := exec_of_isLoad hload
  simp only [hexec]
  exact ⟨fun ha => load_of_error (memRead_misaligned ha), fun ha hm => load_of_error (memRead_unmapped ha hm),
    fun ha hm hnone => load_of_error (memRead_uninitialised ha hm hnone)⟩

/-- Settles O37: the stop of the write is the stop of the store. -/
theorem storeStops : Obligations.StoreStops := by
  intro i s v a im hstore
  rw [exec_of_isStore hstore]
  refine ⟨fun ha => store_of_fault (memWrite_misaligned ha), fun ha hm => store_of_fault (memWrite_unmapped ha hm),
    fun ha hm hcode => ?_⟩
  simp only [OutsideCode, not_forall, Bool.not_eq_false] at hcode
  obtain ⟨k, hk, hin⟩ := hcode
  exact store_refused ha hm (accessAddrs_eq_addrsOf _ _ ▸ mem_accessAddrs.mpr ⟨k, hk, rfl⟩) hin

/-- Settles O38: the check of the alignment comes first, and every address is a multiple of 1. -/
theorem completedAccessesAreAligned : Obligations.CompletedAccessesAreAligned := by
  refine ⟨fun s t d a im => ⟨?_, ?_⟩, fun s d a im x n i hi => ?_⟩
  · rintro (h | h)
    · exact load_next_aligned h
    · exact store_next_aligned h
  · rintro (h | h | h)
    · exact load_next_aligned h
    · exact load_next_aligned h
    · exact store_next_aligned h
  · simp only [List.mem_cons, List.not_mem_nil, or_false] at hi
    rcases hi with rfl | rfl | rfl
    · exact load_byte_ne_misaligned
    · exact load_byte_ne_misaligned
    · exact store_byte_ne_misaligned

/-- Settles O51, by induction over the run: `ValuesGrow` holds at its start and every step keeps it. -/
theorem valuesPersistInMappedMemory : Obligations.ValuesPersistInMappedMemory := by
  intro k s t h
  obtain ⟨_, hkept, hgained⟩ := run_valuesGrow h
  exact ⟨hkept, hgained⟩

/-- Settles O33: the sign extension keeps the displacement modulo 2^32, and the sum wraps there. -/
theorem effectiveAddressIsExact : Obligations.EffectiveAddressIsExact := effAddr_exact

end Sys2Proof.Machine
end

section
/-! SUPPORT. What the decoder drops from a word and what the encoder puts back, and the operations an opcode names: the
rules that the statements about formats, masks and opcode maps (spec/30_encoding.md) rest on. -/

namespace Sys2Proof

/-! ### The operations an opcode names (R75, R76, R78) -/

/-- An OPC value is unassigned when it is no operation's opcode (R78). -/
theorem opOfOpcode_eq_none_iff {m : OpcodeMap} {b : BitVec 8} :
    opOfOpcode m b = none ↔ b.toNat ∉ allOps.map (fun op => (opcode m op).toNat) := by
  simp [opOfOpcode, List.find?_eq_none, ← BitVec.toNat_inj]

/-- The opcodes of `SECTION7` in the table's order: 0x04 is left out (R75). -/
theorem opcodes_section7 :
    allOps.map (fun op => (opcode .section7 op).toNat) = List.range' 0 4 ++ List.range' 5 32 := by decide

/-- The opcodes of `LISTING8` in the table's order (R76). -/
theorem opcodes_listing8 : allOps.map (fun op => (opcode .listing8 op).toNat) = List.range' 0 36 := by decide

/-! ### A word as OPC over bits 23:0 (R61, R77, R90) -/

/-- Two words of these two fields are equal exactly when both fields are. -/
theorem append_eq_append_iff {a c : BitVec 8} {b d : BitVec 24} : a ++ b = c ++ d ↔ a = c ∧ b = d := by
  refine ⟨fun h => ⟨?_, ?_⟩, fun ⟨hac, hbd⟩ => by rw [hac, hbd]⟩
  · simpa only [BitVec.extractLsb'_append_eq_left] using congrArg (BitVec.extractLsb' 24 8) h
  · simpa only [BitVec.extractLsb'_append_eq_right] using congrArg (BitVec.extractLsb' 0 24) h

theorem opcField_append_absAddrField (w : Word) : opcField w ++ absAddrField w = w :=
  (BitVec.extractLsb'_append_extractLsb'_eq_extractLsb' rfl).trans BitVec.extractLsb'_eq_self

/-- The UNUSED bits of a format among bits 23:0. -/
def unusedOperandBits (f : Format) : BitVec 24 := (unusedMask f).extractLsb' 0 24

/-- No bit of OPC is UNUSED. -/
theorem unusedMask_eq_append (f : Format) : unusedMask f = 0#8 ++ unusedOperandBits f := by cases f <;> decide

/-- With `STRICT_UNUSED` the mask of a format is OPC and the UNUSED bits (R90). -/
theorem matchMask_eq_append (f : Format) : Machine.matchMask f = 0xFF#8 ++ unusedOperandBits f := by
  cases f <;> decide

/-- A word under a mask, field by field. -/
theorem and_append_eq (w : Word) (a : BitVec 8) (b : BitVec 24) :
    w &&& (a ++ b) = (opcField w &&& a) ++ (absAddrField w &&& b) := by
  rw [← BitVec.and_append, opcField_append_absAddrField]

/-- The UNUSED bits of a word are zero exactly when its bits 23:0 have none of them. -/
theorem and_unusedMask_eq_zero_iff {w : Word} {f : Format} :
    w &&& unusedMask f = 0#32 ↔ absAddrField w &&& unusedOperandBits f = 0#24 := by
  have hzero : (0#32 : Word) = 0#8 ++ 0#24 := rfl
  rw [unusedMask_eq_append, and_append_eq, hzero, append_eq_append_iff, BitVec.and_zero, eq_self, true_and]

/-- A word matches a (match, mask) pair when OPC is the opcode and the UNUSED bits are zeros (R90). -/
theorem and_matchMask_eq_iff {w : Word} {f : Format} {c : BitVec 8} :
    w &&& Machine.matchMask f = c ++ 0#24 ↔ opcField w = c ∧ w &&& unusedMask f = 0#32 := by
  have hones : opcField w &&& 0xFF#8 = opcField w := BitVec.and_allOnes
  rw [matchMask_eq_append, and_append_eq, append_eq_append_iff, hones, and_unusedMask_eq_zero_iff]

theorem and_opcMask_eq_iff {w : Word} {c : BitVec 8} : w &&& 0xFF000000#32 = c ++ 0#24 ↔ opcField w = c := by
  have hmask : Machine.matchMask .j = 0xFF000000#32 := rfl
  have hunused : w &&& unusedMask .j = 0#32 := BitVec.and_zero
  rw [← hmask, and_matchMask_eq_iff, and_iff_left hunused]

/-- Clearing the UNUSED bits of a word leaves OPC as it is. -/
theorem and_not_unusedMask (w : Word) (f : Format) :
    w &&& ~~~unusedMask f = opcField w ++ (absAddrField w &&& ~~~unusedOperandBits f) := by
  have hones : opcField w &&& ~~~0#8 = opcField w := BitVec.and_allOnes
  rw [unusedMask_eq_append, BitVec.not_append, and_append_eq, hones]

/-! ### Encoding the fields of a word, one rule per format -/

/-- One bit of the number of the register that five bits of a word name (R74). -/
theorem getLsbD_regBits_regField (w : Word) (lo k : Nat) :
    (regBits (regField w lo)).getLsbD k = (decide (k < 5) && w.getLsbD (lo + k)) :=
  BitVec.getLsbD_extractLsb' lo 5 w k

/-- One bit of a 19-bit immediate (R70). -/
theorem getLsbD_simm19Field (w : Word) (k : Nat) :
    (simm19Field w).getLsbD k = if k < 14 then w.getLsbD k else (decide (k < 19) && w.getLsbD (k + 5)) := by
  rw [simm19Field, BitVec.getLsbD_append]
  simp only [BitVec.getLsbD_extractLsb']
  split_ifs with hk
  · rw [decide_eq_true hk, Bool.true_and, Nat.zero_add]
  · rw [show 19 + (k - 14) = k + 5 by omega, decide_eq_decide.mpr (by omega : k - 14 < 5 ↔ k < 19)]

/-- One bit of a 14-bit immediate (R71, R73). -/
theorem getLsbD_simm14Field (w : Word) (k : Nat) :
    (simm14Field w).getLsbD k = if k < 9 then w.getLsbD k else (decide (k < 14) && w.getLsbD (k + 10)) := by
  rw [simm14Field, BitVec.getLsbD_append]
  simp only [BitVec.getLsbD_extractLsb']
  split_ifs with hk
  · rw [decide_eq_true hk, Bool.true_and, Nat.zero_add]
  · rw [show 19 + (k - 9) = k + 10 by omega, decide_eq_decide.mpr (by omega : k - 9 < 5 ↔ k < 14)]

/-- Bits 23:0 of a word with the UNUSED bits of a format cleared. -/
def usedOperandBits (f : Format) (w : Word) : BitVec 24 := absAddrField w &&& ~~~unusedOperandBits f

/-- To show what the used operand bits of a word are, compare bits 23:0 one by one. -/
theorem eq_usedOperandBits {f : Format} {w : Word} {x : BitVec 24}
    (h : ∀ k < 24, x.getLsbD k = (w.getLsbD k && !(unusedMask f).getLsbD k)) : x = usedOperandBits f w := by
  refine BitVec.eq_of_getLsbD_eq fun k hk => ?_
  rw [h k hk]
  simp [usedOperandBits, absAddrField, unusedOperandBits, hk]

/-- A format without UNUSED bits uses bits 23:0 as they are. -/
theorem usedOperandBits_of_unusedMask_zero {f : Format} (hf : unusedMask f = 0#32) (w : Word) :
    absAddrField w = usedOperandBits f w :=
  eq_usedOperandBits fun k hk => by simp [hf, absAddrField, hk]

theorem zero_eq_usedOperandBits (w : Word) : 0#24 = usedOperandBits .spc w := by
  have hmask : ∀ k < 24, (unusedMask .spc).getLsbD k = true := by decide
  exact eq_usedOperandBits fun k hk => by simp [hmask k hk]

theorem bitsRRR_regFields (w : Word) :
    bitsRRR (regField w 19) (regField w 14) (regField w 9) = usedOperandBits .rrr w := by
  have hmask : ∀ k < 24, (unusedMask .rrr).getLsbD k = decide (k < 9) := by decide
  refine eq_usedOperandBits fun k hk => ?_
  rw [Laws.getLsbD_bitsRRR, hmask k hk]
  simp only [getLsbD_regBits_regField]
  grind

theorem bitsMI_fields {f : Format} (hf : unusedMask f = 0#32) (w : Word) :
    bitsMI (regField w 14) (simm19Field w) = usedOperandBits f w := by
  refine eq_usedOperandBits fun k hk => ?_
  rw [Laws.getLsbD_bitsMI, hf, BitVec.getLsbD_zero]
  simp only [getLsbD_regBits_regField, getLsbD_simm19Field]
  grind

/-- F-RI and F-ST. -/
theorem bitsSplit14_fields {f : Format} (hf : unusedMask f = 0#32) (w : Word) :
    bitsSplit14 (regBits (regField w 14)) (regBits (regField w 9)) (simm14Field w) = usedOperandBits f w := by
  refine eq_usedOperandBits fun k hk => ?_
  rw [Laws.getLsbD_bitsSplit14, hf, BitVec.getLsbD_zero]
  simp only [getLsbD_regBits_regField, getLsbD_simm14Field]
  grind

/-- F-CJ. -/
theorem bitsSplit14_fields_cj (w : Word) :
    bitsSplit14 (regBits (regField w 14)) 0#5 (simm14Field w) = usedOperandBits .cj w := by
  have hmask : ∀ k < 24, (unusedMask .cj).getLsbD k = decide (9 ≤ k ∧ k < 14) := by decide
  refine eq_usedOperandBits fun k hk => ?_
  rw [Laws.getLsbD_bitsSplit14, hmask k hk]
  simp only [getLsbD_regBits_regField, getLsbD_simm14Field, BitVec.getLsbD_zero]
  grind

theorem bitsJR_regField (w : Word) : bitsJR (regField w 9) = usedOperandBits .jr w := by
  have hmask : ∀ k < 24, (unusedMask .jr).getLsbD k = decide (k < 9 ∨ 14 ≤ k) := by decide
  refine eq_usedOperandBits fun k hk => ?_
  rw [Laws.getLsbD_bitsJR, hmask k hk]
  simp only [getLsbD_regBits_regField]
  grind

/-- The operand bits of the fields of a word are those of the word, but for the UNUSED bits. -/
theorem operandBits_instrOfFields (op : Op) (w : Word) :
    operandBits (instrOfFields op w) = usedOperandBits (formatOf op) w := by
  cases op with
  | nop | halt => exact zero_eq_usedOperandBits w
  | movsi | movhi => exact bitsMI_fields rfl w
  | ld | ldhs | ldhu | ldbs | ldbu | addi | st | sth | stb => exact bitsSplit14_fields rfl w
  | jumpAbs | callAbs => exact usedOperandBits_of_unusedMask_zero rfl w
  | jumpReg | callReg => exact bitsJR_regField w
  | jumpz | jumpnz => exact bitsSplit14_fields_cj w
  | _ => exact bitsRRR_regFields w

/-- Encoding the fields of a word gives the word back with its UNUSED bits cleared. -/
theorem encode_instrOfFields {m : OpcodeMap} {op : Op} {w : Word} (h : opcField w = opcode m op) :
    encode m (instrOfFields op w) = w &&& ~~~unusedMask (formatOf op) := by
  rw [encode, opOf_instrOfFields, operandBits_instrOfFields, and_not_unusedMask, h, usedOperandBits]

/-- A word that has no bit of a mask is unchanged when the mask's bits are cleared. -/
theorem and_not_eq_self {w u : Word} (h : w &&& u = 0#32) : w &&& ~~~u = w := by
  have hsplit : w &&& u ||| w &&& ~~~u = w := by
    rw [← BitVec.and_or_distrib_left, BitVec.or_not_self, BitVec.and_allOnes]
  rwa [h, BitVec.zero_or] at hsplit

/-- The words that decode to an instruction of an operation (R77, R90). -/
theorem decodesTo_iff {m : OpcodeMap} {strict : Bool} {w : Word} {op : Op} :
    (∃ i, decodeWord m strict w = .ok i ∧ opOf i = op) ↔
      opcField w = opcode m op ∧ (strict = true → w &&& unusedMask (formatOf op) = 0#32) := by
  constructor
  · rintro ⟨i, hi, rfl⟩
    obtain ⟨hopc, hunused, _⟩ := decodeWord_ok hi
    exact ⟨hopc.symm, hunused⟩
  · rintro ⟨hopc, hunused⟩
    exact ⟨instrOfFields op w, by cases strict <;> simp_all [decodeWord], opOf_instrOfFields op w⟩

/-! ### The UNUSED fields of an encoded word -/

section UnusedFields

variable {m : OpcodeMap} {i : Instr}

/-- The UNUSED field of F-RRR (R63). -/
theorem unused_rrr {d a b : Reg} (h : operandBits i = bitsRRR d a b) : (encode m i).extractLsb' 0 9 = 0#9 := by
  refine field_eq (by omega) fun k hk => ?_
  rw [h, Laws.getLsbD_bitsRRR, Nat.zero_add, if_pos hk, BitVec.getLsbD_zero]

/-- The two UNUSED fields of F-JR (R68). -/
theorem unused_jr {a : Reg} (h : operandBits i = bitsJR a) :
    (encode m i).extractLsb' 14 10 = 0#10 ∧ (encode m i).extractLsb' 0 9 = 0#9 := by
  refine ⟨field_eq (by omega) fun k hk => ?_, field_eq (by omega) fun k hk => ?_⟩
  · rw [h, Laws.getLsbD_bitsJR, if_neg (by omega), if_neg (by omega), BitVec.getLsbD_zero]
  · rw [h, Laws.getLsbD_bitsJR, Nat.zero_add, if_pos hk, BitVec.getLsbD_zero]

end UnusedFields

end Sys2Proof
end

section
/-! SUPPORT. Numbers, registers, mnemonics and statements as assembly text, and the assembler's relative field: the
rules that the statements about the assembler (spec/30_encoding.md R75, R82 to R84; spec/49_cond_jump.md R223) rest on. -/

namespace Sys2Proof.Machine

/-! ### Numbers and registers as text (R82 to R84) -/

/-- A register's name names it (R83). -/
theorem regOfName_regName : ∀ r : Reg, regOfName (regName r) = some r := by decide

/-- A number's tokens are read as the number (R84). -/
theorem numberOperand_intTokens (ds : Defines) (n : Int) : numberOperand ds (intTokens n) = some (n, []) := by
  by_cases hn : 0 ≤ n
  · simp [intTokens, hn, numberOperand]
  · simp [intTokens, hn, numberOperand]; omega

/-- A displacement's tokens are read as the displacement, and what follows them is left (R82, R84). -/
theorem displacement_dispTokens (ds : Defines) (n : Int) (ts : List Token) :
    displacement ds (dispTokens n ++ ts) = some (n, ts) := by
  by_cases hn : 0 ≤ n
  · simp [dispTokens, hn, displacement, numberOperand]
  · simp [dispTokens, hn, displacement]; omega

/-- A displacement is written as a sign and a number, so that it is not read as a label. -/
theorem dispTokens_eq (n : Int) : ∃ c k, dispTokens n = [.sym c, .num k] := by
  by_cases hn : 0 ≤ n
  · exact ⟨_, _, if_pos hn⟩
  · exact ⟨_, _, if_neg hn⟩

/-- The value of a signed field is in its range and gives the field (R70, R71, R73). -/
theorem signedField_toInt {w : Nat} (x : BitVec w) : signedField w x.toInt = some x := by
  have hlow := BitVec.le_toInt x
  have hhigh : x.toInt < 2 ^ (w - 1) := BitVec.toInt_lt
  have hrange : -((2 ^ (w - 1) : Nat) : Int) ≤ x.toInt ∧ x.toInt < ((2 ^ (w - 1) : Nat) : Int) := by
    push_cast; exact ⟨hlow, hhigh⟩
  rw [signedField, if_pos hrange, BitVec.ofInt_toInt]

/-- The value of an unsigned field is in its range and gives the field (R72). -/
theorem unsignedField_toNat {w : Nat} (x : BitVec w) : unsignedField w x.toNat = some x := by
  have hrange : (0 : Int) ≤ x.toNat ∧ (x.toNat : Int) < (2 ^ w : Nat) :=
    ⟨Int.natCast_nonneg _, Int.ofNat_lt.mpr x.isLt⟩
  rw [unsignedField, if_pos hrange, BitVec.ofInt_natCast, BitVec.ofNat_toNat, BitVec.setWidth_eq]

/-- MOVHI's operand may be written unsigned (log entry 27). -/
theorem movhiField_toNat (x : BitVec 19) : movhiField x.toNat = some x := by
  have hrange : (-262144 : Int) ≤ x.toNat ∧ (x.toNat : Int) < 524288 := by omega
  rw [movhiField, if_pos hrange, BitVec.ofInt_natCast, BitVec.ofNat_toNat, BitVec.setWidth_eq]

/-! ### The operations a mnemonic names (R82) -/

theorem opsNamed_jump : allOps.filter (fun o => mnemonicOf o == mnemonicOf .jumpAbs) = [.jumpAbs, .jumpReg] := rfl

theorem opsNamed_call : allOps.filter (fun o => mnemonicOf o == mnemonicOf .callAbs) = [.callAbs, .callReg] := rfl

/-- The other mnemonics stand for one operation each (R75). -/
theorem opsNamed_of_format {op : Op} (hj : formatOf op ≠ .j) (hjr : formatOf op ≠ .jr) :
    allOps.filter (fun o => mnemonicOf o == mnemonicOf op) = [op] := by
  cases op with
  | jumpAbs | callAbs => exact absurd rfl hj
  | jumpReg | callReg => exact absurd rfl hjr
  | _ => rfl

/-! ### Parsing a statement, one rule per form of R75 -/

/-- `DST = mnemonic operands` is read by the rule of the one operation named. -/
theorem parseInstr_dst {op : Op} {d : Reg} {ts : List Token} {i : Instr} (hj : formatOf op ≠ .j)
    (hjr : formatOf op ≠ .jr) (h : parseDst [] d op ts = some i) :
    parseInstr [] (regToken d :: .sym '=' :: .name (mnemonicOf op) :: ts) = some (.ready i) := by
  simp [parseInstr, regToken, regOfName_regName, opsNamed_of_format hj hjr, h]

/-- `mnemonic operands` is read by the rules of the operations named. -/
theorem parseInstr_noDst {cs : List Char} {ts : List Token} {i : AsmInstr}
    (hts : ∀ m ts', ts ≠ .sym '=' :: .name m :: ts')
    (h : (allOps.filter (fun o => mnemonicOf o == cs)).findSome? (fun o => parseNoDst [] o ts) = some i) :
    parseInstr [] (.name cs :: ts) = some i := by
  unfold parseInstr
  split
  · next heq => cases heq; exact absurd rfl (hts _ _)
  · next heq => cases heq; exact h
  · next hne => exact absurd rfl (hne _ _)

/-- As `parseInstr_noDst`, when one operation is named. -/
theorem parseInstr_noDst_of_format {op : Op} {ts : List Token} {i : AsmInstr} (hj : formatOf op ≠ .j)
    (hjr : formatOf op ≠ .jr) (hts : ∀ m ts', ts ≠ .sym '=' :: .name m :: ts')
    (h : parseNoDst [] op ts = some i) : parseInstr [] (.name (mnemonicOf op) :: ts) = some i :=
  parseInstr_noDst hts (by simp [opsNamed_of_format hj hjr, h])

theorem parseInstr_rrrTokens {op : Op} {d a b : Reg} {i : Instr} (hf : formatOf op = .rrr)
    (hi : rrrInstr op d a b = some i) : parseInstr [] (rrrTokens op d a b) = some (.ready i) := by
  refine parseInstr_dst (by simp [hf]) (by simp [hf]) ?_
  simp [parseDst, hf, parseRRR, regToken, regOfName_regName, hi]

theorem parseInstr_loadTokens {op : Op} {d a : Reg} {im : BitVec 14} {i : Instr} (hf : formatOf op = .ri)
    (hop : op ≠ .addi) (hi : loadInstr op d a im = some i) :
    parseInstr [] (loadTokens op d a im) = some (.ready i) := by
  refine parseInstr_dst (by simp [hf]) (by simp [hf]) ?_
  simp [parseDst, hf, hop, parseLoad, regToken, regOfName_regName, displacement_dispTokens, signedField_toInt, hi]

theorem parseInstr_storeTokens {op : Op} {v a : Reg} {im : BitVec 14} {i : Instr} (hf : formatOf op = .st)
    (hi : storeInstr op v a im = some i) : parseInstr [] (storeTokens op v a im) = some (.ready i) := by
  refine parseInstr_noDst_of_format (by simp [hf]) (by simp [hf]) nofun ?_
  cases op with
  | st | sth | stb =>
    simp [parseNoDst, regToken, regOfName_regName, displacement_dispTokens, signedField_toInt, hi]
  | _ => cases hf

/-- JUMPZ and JUMPNZ with REL_ADDR written as a number. -/
theorem parseNoDst_condJump (a : Reg) (r : BitVec 14) :
    parseNoDst [] .jumpz (regToken a :: .sym ',' :: dispTokens r.toInt) = some (.ready (.jumpz a r)) ∧
    parseNoDst [] .jumpnz (regToken a :: .sym ',' :: dispTokens r.toInt) = some (.ready (.jumpnz a r)) := by
  have hdisp := displacement_dispTokens [] r.toInt []
  obtain ⟨c, k, htokens⟩ := dispTokens_eq r.toInt
  rw [htokens, List.append_nil] at hdisp
  rw [htokens]
  simp [parseNoDst, regToken, regOfName_regName, hdisp, signedField_toInt]

/-- The statement of an instruction is read as the instruction, by the rule of its form. -/
theorem parseInstr_instrTokens (i : Instr) : parseInstr [] (instrTokens i) = some (.ready i) := by
  cases i with
  | nop | halt => exact parseInstr_noDst_of_format nofun nofun nofun rfl
  | movsi d im =>
    exact parseInstr_dst nofun nofun
      (by simp [parseDst, formatOf, parseMI, numberOperand_intTokens, signedField_toInt])
  | movhi d im =>
    exact parseInstr_dst nofun nofun (by simp [parseDst, formatOf, parseMI, numberOperand, movhiField_toNat])
  | addi d a im =>
    exact parseInstr_dst nofun nofun (by
      simp [parseDst, formatOf, parseAddi, regToken, regOfName_regName, numberOperand_intTokens, signedField_toInt])
  | ld | ldhs | ldhu | ldbs | ldbu => exact parseInstr_loadTokens rfl nofun rfl
  | st | sth | stb => exact parseInstr_storeTokens rfl rfl
  | jumpAbs t => exact parseInstr_noDst nofun (by simp [opsNamed_jump, parseNoDst, unsignedField_toNat])
  | callAbs t => exact parseInstr_noDst nofun (by simp [opsNamed_call, parseNoDst, unsignedField_toNat])
  | jumpReg a =>
    refine parseInstr_noDst nofun ?_
    have hnamed : allOps.filter (fun o => mnemonicOf o == mnemonicOf .jumpReg) = _ := opsNamed_jump
    simp [hnamed, parseNoDst, regToken, regOfName_regName]
  | callReg a =>
    refine parseInstr_noDst nofun ?_
    have hnamed : allOps.filter (fun o => mnemonicOf o == mnemonicOf .callReg) = _ := opsNamed_call
    simp [hnamed, parseNoDst, regToken, regOfName_regName]
  | jumpz a r => exact parseInstr_noDst_of_format nofun nofun nofun (parseNoDst_condJump a r).1
  | jumpnz a r => exact parseInstr_noDst_of_format nofun nofun nofun (parseNoDst_condJump a r).2
  | _ => exact parseInstr_rrrTokens rfl rfl

/-! ### The assembler's relative field (R220, R223) -/

/-- The low bits of a sign extension are what was extended (R73). -/
theorem setWidth_sext14 (r : BitVec 14) : (sext14 r).setWidth 14 = r := by
  refine BitVec.eq_of_getLsbD_eq fun k hk => ?_
  have hk' : k < 32 := by omega
  rw [sext14, BitVec.getLsbD_setWidth, BitVec.getLsbD_signExtend, if_pos hk, decide_eq_true hk, decide_eq_true hk',
    Bool.true_and, Bool.true_and]

/-- The assembler stores the field whose sign extension is the label's distance from the base (R223). -/
theorem relField_eq_some_iff {base : CondJumpBase} {label a : Word} {r : BitVec 14} :
    relField base label a = some r ↔ label = a + condJumpBase base + sext14 r := by
  have hdist : label - a - condJumpBase base = sext14 r ↔ label = a + condJumpBase base + sext14 r := by
    rw [BitVec.sub_sub, sub_eq_iff_eq_add']
  rw [← hdist]
  simp only [relField, Option.ite_none_right_eq_some, Option.some_inj]
  constructor
  · rintro ⟨hreach, rfl⟩
    exact hreach.symm
  · intro h
    rw [h, setWidth_sext14]
    exact ⟨rfl, rfl⟩

/-- The sign extensions of a REL14 are the numbers of 14 signed bits (R73). -/
theorem exists_sext14_iff {v base : Word} :
    (∃ r, v = base + sext14 r) ↔ ∃ n : Int, -8192 ≤ n ∧ n ≤ 8191 ∧ v = base + BitVec.ofInt 32 n := by
  constructor
  · rintro ⟨r, hr⟩
    have hlow : -8192 ≤ r.toInt := BitVec.le_toInt r
    have hhigh : r.toInt < 8192 := BitVec.toInt_lt
    exact ⟨r.toInt, hlow, by omega, hr⟩
  · rintro ⟨n, hlow, hhigh, hn⟩
    have hval : (BitVec.ofInt 14 n).toInt = n := BitVec.toInt_ofInt_eq_self (by omega) hlow (by omega)
    refine ⟨BitVec.ofInt 14 n, ?_⟩
    rwa [sext14, BitVec.signExtend, hval]

end Sys2Proof.Machine
end

section
/-! PROOFS. The obligations about the encoding (spec/30_encoding.md), each a short use of the rules above. -/

namespace Sys2Proof.Machine

/-- Settles O2: the encoder puts back what the decoder read, but for the UNUSED bits, and those are zero. -/
theorem encodeOfDecodedWord : Obligations.EncodeOfDecodedWord := by
  intro m w i h
  obtain ⟨hopc, hunused, hi⟩ := decodeWord_ok h
  rw [hi, encode_instrOfFields hopc.symm, and_not_eq_self (hunused rfl)]

/-- Settles O3: both masks ask for the opcode, and that of R90 also for zeros in the UNUSED bits. -/
theorem decodesIffMaskMatches : Obligations.DecodesIffMaskMatches := by
  intro m w op
  rw [decodesTo_iff, decodesTo_iff, and_matchMask_eq_iff, and_opcMask_eq_iff]
  simp

/-- Settles O4: the word with its UNUSED bits cleared is the encoding of what the word itself decodes to. -/
theorem looseDecodeClearsUnused : Obligations.LooseDecodeClearsUnused := by
  intro m w op h
  rw [← encode_instrOfFields (opcode_of_opOfOpcode h).symm, decodeWord_encode]
  simp [decodeWord, h]

/-- Settles O5: each format's fields are read off its operand bits. -/
theorem fieldsOfUnsplitFormats : Obligations.FieldsOfUnsplitFormats := by
  refine ⟨opcField_encode, fun m strict w w' i i' hopc hi hi' => ?_, fun m i hi => ?_, fun m d a b i hi => ?_,
    fun m t i hi => ?_, fun m a i hi => ?_⟩
  · obtain ⟨hop, _⟩ := decodeWord_ok hi
    obtain ⟨hop', _⟩ := decodeWord_ok hi'
    exact opcode_injective m (hop.trans (hopc.trans hop'.symm))
  · have hbits : operandBits i = 0#24 := by fin_cases hi <;> rfl
    exact (absAddrField_encode m i).trans hbits
  · have hbits : operandBits i = bitsRRR d a b := by fin_cases hi <;> rfl
    obtain ⟨hd, ha, hb⟩ := fields_rrr (m := m) hbits
    exact ⟨hd, ha, hb, unused_rrr hbits⟩
  · have hbits : operandBits i = t := by fin_cases hi <;> rfl
    exact (absAddrField_encode m i).trans hbits
  · have hbits : operandBits i = bitsJR a := by fin_cases hi <;> rfl
    obtain ⟨hhigh, hlow⟩ := unused_jr (m := m) hbits
    exact ⟨hhigh, field_jr hbits, hlow⟩

/-- Settles O6: as O5, for the formats with an immediate cut in two. -/
theorem fieldsOfSplitFormats : Obligations.FieldsOfSplitFormats := by
  refine ⟨fun m d im i hi => ?_, fun m d a im i hi => ?_, fun m a r i hi => ?_⟩
  · have hbits : operandBits i = bitsMI d im := by fin_cases hi <;> rfl
    exact fields_mi hbits
  · have hbits : operandBits i = bitsSplit14 (regBits a) (regBits d) im := by
      rcases hi with (rfl | rfl | rfl | rfl | rfl) | rfl | rfl | rfl | rfl <;> rfl
    exact fields_split14 hbits
  · have hbits : operandBits i = bitsSplit14 (regBits a) 0#5 r := by fin_cases hi <;> rfl
    exact fields_split14 hbits

/-- Settles O9, by the rule of each instruction's form. -/
theorem parseOfWrittenInstruction : Obligations.ParseOfWrittenInstruction := parseInstr_instrTokens

/-- Settles O46: a field is stored for the labels at a sign extension from the base, where a taken jump goes. -/
theorem assembledBranchReachesLabel : Obligations.AssembledBranchReachesLabel := by
  intro s label
  simp only [relField_eq_some_iff]
  refine ⟨exists_sext14_iff, fun r a hlabel haligned => ?_⟩
  have htarget : relTarget s r = label := hlabel.symm
  rw [← htarget] at haligned ⊢
  refine ⟨fun hzero => ?_, fun hnonzero => ?_⟩
  · have htaken : isZero (s.readReg a) = true := beq_iff_eq.mpr hzero
    exact goesTo_of_transfer (condJump_taken rfl htaken) haligned
  · have htaken : (!isZero (s.readReg a)) = true := by simp [isZero, hnonzero]
    exact goesTo_of_transfer (condJump_taken rfl htaken) haligned

/-- Settles O7: the operations not named have the next lower opcode, and the unassigned values are those that the lists
of opcodes leave out. -/
theorem opcodeMapsRelatedAndUnassigned : Obligations.OpcodeMapsRelatedAndUnassigned := by
  refine ⟨fun op hop => ?_, fun op hop => ?_, fun b => ?_, fun b => ?_⟩
  · fin_cases hop <;> rfl
  · cases op with
    | nop | halt | movsi | movhi => exact absurd (by decide) hop
    | _ => rfl
  · rw [opOfOpcode_eq_none_iff, opcodes_section7, ← BitVec.toNat_inj]
    simp only [List.mem_append, List.mem_range'_1, BitVec.toNat_ofNat]
    omega
  · rw [opOfOpcode_eq_none_iff, opcodes_listing8, List.mem_range'_1]
    omega

/-- Settles O8: the decoder evaluates on each word. -/
theorem sampleWordsDecode : Obligations.SampleWordsDecode :=
  ⟨rfl, rfl, rfl, rfl, rfl, rfl, rfl, rfl, rfl, rfl, rfl, rfl, rfl, rfl⟩

end Sys2Proof.Machine
end

section
/-! SUPPORT. How a three-register instruction is written and encoded, and the instructions that write one register: the
rules that the statements about moves and arithmetic (spec/41_cond_move.md) rest on. -/

namespace Sys2Proof.Machine

/-- What the instructions of the three-register form have in common: the statement, the operand bits, and that they do
not load (R63, R75). -/
theorem rrrInstr_eq_some {op : Op} {d a b : Reg} {i : Instr} (h : rrrInstr op d a b = some i) :
    opOf i = op ∧ instrTokens i = rrrTokens op d a b ∧ operandBits i = bitsRRR d a b ∧ loadBytes i = 0 := by
  cases op with
  | add | sub | mul | and | or | xor | sll | srl | sra | eq | neq | slt | ult | sle | ule | movz | movnz =>
    cases h; exact ⟨rfl, rfl, rfl, rfl⟩
  | _ => cases h

/-- A three-register instruction is written and encoded as the mnemonic and the opcodes of its operation say, and its
Latency is 1 (R63, R75, R271). -/
theorem spelledRRR_of_rrrInstr {op : Op} {c : Reg → Reg → Reg → Instr} {mnemonic : String}
    {section7 listing8 : BitVec 8} (hc : ∀ d a b, rrrInstr op d a b = some (c d a b))
    (hname : mnemonicOf op = mnemonic.toList) (h7 : opcode .section7 op = section7)
    (h8 : opcode .listing8 op = listing8) : SpelledRRR c mnemonic section7 listing8 := by
  intro d a b
  obtain ⟨hop, htokens, hbits, hload⟩ := rrrInstr_eq_some (hc d a b)
  refine ⟨?_, ?_, ?_, ?_⟩
  · rw [htokens, rrrTokens, hname]; rfl
  · rw [encode, hop, hbits, h7]; rfl
  · rw [encode, hop, hbits, h8]; rfl
  · rw [latency, if_pos hload]

section WritesReg

variable {i : Instr} {s : State} {d b : Reg}

/-- An instruction that writes DST and moves on changes nothing else. -/
theorem writesReg_of_exec {v : Word} {P : Word → Prop} (he : exec i s = .next (s.writeReg d v).advance) (hP : P v) :
    WritesReg i d s P := by
  have hdst : (s.writeReg d v).advance.readReg d = v := readReg_writeReg_same ..
  have hregs : SameRegsBut [d] s (s.writeReg d v).advance := fun r hr =>
    readReg_writeReg_of_ne s v (List.ne_of_not_mem_cons hr)
  exact ⟨_, he, hdst.symm ▸ hP, rfl, hregs, fun _ _ => rfl, rfl, rfl⟩

/-- A conditional move whose condition holds copies SRC2 to DST (R110, R111). -/
theorem writesReg_of_condMove {take : Bool} (he : exec i s = condMove take d b s) (ht : take = true) :
    WritesReg i d s (fun v => v = s.readReg b) :=
  writesReg_of_exec (by rw [he, ht]; rfl) rfl

/-- A conditional move whose condition fails only moves on (R110, R111). -/
theorem goesTo_of_condMove {take : Bool} (he : exec i s = condMove take d b s) (ht : take = false) :
    GoesTo i s (s.pc + 4#32) :=
  goesTo_of_advance (by rw [he, ht]; rfl)

end WritesReg

end Sys2Proof.Machine
end

section
/-! PROOFS. The obligation about the conditional moves (spec/41_cond_move.md), a short use of the rules above. -/

namespace Sys2Proof.Machine

/-- Settles O29: each instruction is `condMove` of its condition, which holds or fails. -/
theorem conditionalMoveResults : Obligations.ConditionalMoveResults := by
  have hmovz : SpelledRRR .movz "movz" 0x20 0x1F :=
    spelledRRR_of_rrrInstr (op := .movz) (fun _ _ _ => rfl) rfl rfl rfl
  have hmovnz : SpelledRRR .movnz "movnz" 0x21 0x20 :=
    spelledRRR_of_rrrInstr (op := .movnz) (fun _ _ _ => rfl) rfl rfl rfl
  refine ⟨hmovz, hmovnz, fun s d a b => ⟨fun hzero => ?_, fun hnonzero => ?_⟩⟩
  · have hz : isZero (s.readReg a) = true := isZero_iff.mpr hzero
    exact ⟨writesReg_of_condMove rfl hz, goesTo_of_condMove rfl (by rw [hz]; rfl)⟩
  · have hz : isZero (s.readReg a) = false := isZero_eq_false_iff.mpr hnonzero
    exact ⟨writesReg_of_condMove rfl (by rw [hz]; rfl), goesTo_of_condMove rfl hz⟩

end Sys2Proof.Machine
end

section
/-! SUPPORT. The values of MOVSI and MOVHI, and two writes of one register in a row: the rules that the statements about
the immediate moves (spec/42_move_imm.md) rest on. -/

namespace Sys2Proof.Machine

/-! ### The values (R120, R121) -/

/-- Sign extension keeps the signed number (R73, R120). -/
theorem toInt_sext19 (im : BitVec 19) : (sext19 im).toInt = im.toInt := BitVec.toInt_signExtend_of_le (by omega)

/-- Sign extension leaves the low half of the operand in place (R73). -/
theorem lowHalf_sext19 (im : BitVec 19) : (sext19 im).extractLsb' 0 16 = im.extractLsb' 0 16 := by
  refine BitVec.eq_of_getLsbD_eq fun k hk => ?_
  have hk19 : k < 19 := by omega
  have hk32 : k < 32 := by omega
  rw [BitVec.getLsbD_extractLsb', BitVec.getLsbD_extractLsb', Nat.zero_add, sext19, BitVec.getLsbD_signExtend,
    if_pos hk19, decide_eq_true hk32, Bool.true_and]

/-- A half-word in a 19-bit operand is the operand's low half. -/
theorem lowHalf_setWidth (h : BitVec 16) : (h.setWidth 19).extractLsb' 0 16 = h := by
  rw [BitVec.extractLsb'_setWidth_of_le (by omega), BitVec.extractLsb'_eq_self]

/-- MOVHI's value in exact arithmetic: operand bits 15:0 over the kept low half (R121). -/
theorem toNat_highHalf (im : BitVec 19) (old : Word) :
    (highHalf im old).toNat = im.toNat % 65536 * 65536 + old.toNat % 65536 := by
  have hlow : old.toNat % 2 ^ 16 < 2 ^ 16 := Nat.mod_lt _ (by omega)
  rw [highHalf, BitVec.toNat_append, BitVec.extractLsb'_toNat, BitVec.extractLsb'_toNat, Nat.shiftRight_zero,
    Nat.shiftRight_zero, ← Nat.shiftLeft_add_eq_or_of_lt hlow, Nat.shiftLeft_eq]
  rfl

/-- The high half of `K` over what MOVSI of its low half leaves is `K` (R122). -/
theorem highHalf_sext19_halves (K : Word) :
    highHalf ((K.extractLsb' 16 16).setWidth 19) (sext19 ((K.extractLsb' 0 16).setWidth 19)) = K := by
  rw [highHalf, lowHalf_sext19, lowHalf_setWidth, lowHalf_setWidth]
  exact (BitVec.extractLsb'_append_extractLsb'_eq_extractLsb' rfl).trans BitVec.extractLsb'_eq_self

/-! ### The instructions -/

theorem writesReg_movsi (s : State) (d : Reg) (im : BitVec 19) : WritesReg (.movsi d im) d s (fun v => v = sext19 im) :=
  writesReg_of_exec rfl rfl

theorem writesReg_movhi (s : State) (d : Reg) (im : BitVec 19) :
    WritesReg (.movhi d im) d s (fun v => v = highHalf im (s.readReg d)) :=
  writesReg_of_exec rfl rfl

theorem WritesReg.imp {i : Instr} {d : Reg} {s : State} {P Q : Word → Prop} (h : WritesReg i d s P)
    (hPQ : ∀ v, P v → Q v) : WritesReg i d s Q := by
  obtain ⟨t, hexec, hP, hrest⟩ := h
  exact ⟨t, hexec, hPQ _ hP, hrest⟩

theorem Frame.trans {ds : List Reg} {as : List Nat} {s t u : State} (h : Frame ds as s t) (h' : Frame ds as t u) :
    Frame ds as s u := by
  obtain ⟨hregs, hbytes, hhalted, hparams⟩ := h
  obtain ⟨hregs', hbytes', hhalted', hparams'⟩ := h'
  exact ⟨fun r hr => (hregs' r hr).trans (hregs r hr), fun a ha => (hbytes' a ha).trans (hbytes a ha),
    hhalted'.trans hhalted, hparams'.trans hparams⟩

/-- Two instructions in a row that write the same register change nothing else, and `pc` is 8 further. -/
theorem WritesReg.seq {i j : Instr} {d : Reg} {s : State} {P Q : Word → Prop} (hi : WritesReg i d s P)
    (hj : ∀ t, P (t.readReg d) → WritesReg j d t Q) :
    ∃ t, exec i s = .next t ∧ ∃ u, exec j t = .next u ∧ Q (u.readReg d) ∧ u.pc = s.pc + 8#32 ∧ Frame [d] [] s u := by
  obtain ⟨t, hexec, hP, hpc, hframe⟩ := hi
  obtain ⟨u, hexec', hQ, hpc', hframe'⟩ := hj t hP
  have hpc8 : u.pc = s.pc + 8#32 := by rw [hpc', hpc, BitVec.add_assoc]; rfl
  exact ⟨t, hexec, u, hexec', hQ, hpc8, hframe.trans hframe'⟩

end Sys2Proof.Machine
end

section
/-! PROOFS. The obligations about the immediate moves (spec/42_move_imm.md), each a short use of the rules above. -/

namespace Sys2Proof.Machine

/-- Settles O30: the values that MOVSI and MOVHI write, in exact arithmetic. -/
theorem moveImmediateResults : Obligations.MoveImmediateResults := fun s d im =>
  ⟨(writesReg_movsi s d im).imp fun _ hv => hv ▸ toInt_sext19 im,
    (writesReg_movhi s d im).imp fun _ hv => hv ▸ toNat_highHalf im (s.readReg d)⟩

/-- Settles O31: MOVHI finds the low half of `K` where MOVSI has left it. -/
theorem constantInTwoInstructions : Obligations.ConstantInTwoInstructions := by
  intro s d K
  refine (writesReg_movsi s d _).seq (Q := fun v => v = K) fun t ht => ?_
  refine (writesReg_movhi t d _).imp fun v hv => ?_
  rw [hv, ht, highHalf_sext19_halves]

end Sys2Proof.Machine
end

section
/-! SUPPORT. The values of the three-register arithmetic, what a comparison writes, and what a condition makes of it: the
rules that the statements about arithmetic, logic and comparison (spec/43_alu.md) rest on. -/

namespace Sys2Proof.Machine

/-! ### The values (R132, R137 to R139) -/

/-- The wrapped difference in exact arithmetic (R132). -/
theorem toNat_sub_exact (x y : Word) : ((x - y).toNat : Int) = (x.toNat - y.toNat : Int) % 2 ^ 32 := by
  rw [BitVec.toNat_sub]; omega

/-- The amount `b[4:0]` is `b` modulo 32 (R137 to R139). -/
theorem shiftAmount_eq_mod (b : Word) : shiftAmount b = b.toNat % 32 := BitVec.extractLsb'_toNat ..

/-- SLL multiplies by a power of two (R137). -/
theorem toNat_shiftLeft_shiftAmount (x b : Word) :
    (x <<< shiftAmount b).toNat = (x.toNat * 2 ^ (b.toNat % 32)) % 2 ^ 32 := by
  rw [BitVec.toNat_shiftLeft, Nat.shiftLeft_eq, shiftAmount_eq_mod]

/-- SRL divides by a power of two (R138). -/
theorem toNat_ushiftRight_shiftAmount (x b : Word) :
    (x >>> shiftAmount b).toNat = x.toNat / 2 ^ (b.toNat % 32) := by
  rw [BitVec.toNat_ushiftRight, Nat.shiftRight_eq_div_pow, shiftAmount_eq_mod]

/-- SRA divides the signed number by a power of two, rounding down (R139). -/
theorem toInt_sshiftRight_shiftAmount (x b : Word) :
    (x.sshiftRight (shiftAmount b)).toInt = x.toInt / 2 ^ (b.toNat % 32) := by
  rw [BitVec.toInt_sshiftRight, Int.shiftRight_eq_div_pow, shiftAmount_eq_mod]
  norm_cast

/-- Two words are equal when their numbers are (R142, R143). -/
theorem beq_eq_decide_toNat (x y : Word) : (x == y) = decide (x.toNat = y.toNat) := by
  rw [beq_eq_decide, decide_eq_decide, BitVec.toNat_inj]

theorem bne_eq_decide_toNat (x y : Word) : (x != y) = decide (x.toNat ≠ y.toNat) := by
  rw [decide_not, ← beq_eq_decide_toNat]; rfl

/-! ### The common rule (R130) -/

/-- What R130 asks of one instruction: a function of `CMP_TRUE` and the two sources, chosen before the state. -/
def CommonRule (c : Reg → Reg → Reg → Instr) : Prop :=
  ∃ f : Word → Word → Word → Word, ∀ (s : State) (d a b : Reg),
    WritesReg (c d a b) d s (fun v => v = f s.params.cmpTrue (s.readReg a) (s.readReg b))

/-- An instruction of the three-register form writes its function of the two sources (R130). -/
theorem writesReg_of_alu {i : Instr} {s : State} {d a b : Reg} (f : Word → Word → Word) {P : Word → Prop}
    (he : exec i s = alu f d a b s) (hP : P (f (s.readReg a) (s.readReg b))) : WritesReg i d s P :=
  writesReg_of_exec he hP

/-- An instruction of the three-register form whose function sees only `CMP_TRUE` of the state keeps R130. -/
theorem commonRule_of_alu {c : Reg → Reg → Reg → Instr} (f : Word → Word → Word → Word)
    (hc : ∀ s d a b, exec (c d a b) s = alu (f s.params.cmpTrue) d a b s) : CommonRule c :=
  ⟨f, fun s d a b => writesReg_of_alu _ (hc s d a b) rfl⟩

/-- A comparison's function is that of R140, for the relation `holds`. -/
theorem commonRule_of_comparison {c : Reg → Reg → Reg → Instr} (holds : Word → Word → Bool)
    (hc : ∀ s d a b, exec (c d a b) s = alu (fun x y => truth s (holds x y)) d a b s) : CommonRule c :=
  commonRule_of_alu (fun cmpTrue x y => if holds x y then cmpTrue else 0#32) hc

/-! ### The comparisons (R140 to R147) -/

theorem truth_decide (s : State) (p : Prop) [Decidable p] :
    truth s (decide p) = if p then s.params.cmpTrue else 0#32 := by
  rw [truth, ite_congr (decide_eq_true_eq) (fun _ => rfl) (fun _ => rfl)]

/-- `CMP_TRUE` is not zero, so a condition sees whether the comparison held (R141). -/
theorem isZero_truth {s : State} (hwf : s.params.wf) (holds : Bool) : isZero (truth s holds) = !holds := by
  cases holds with
  | true => exact beq_eq_false_iff_ne.mpr hwf
  | false => rfl

/-- A comparison writes `truth` of its relation on the two sources (R140). -/
theorem writesReg_of_comparison {i : Instr} {s : State} {d a b : Reg} (holds : Word → Word → Bool)
    (he : exec i s = alu (fun x y => truth s (holds x y)) d a b s) {p : Prop} [Decidable p]
    (hp : holds (s.readReg a) (s.readReg b) = decide p) : WritesReg i d s (fun v => v = truth s (decide p)) :=
  writesReg_of_alu _ he (congrArg (truth s) hp)

section Comparisons

variable (s : State) (d a b : Reg)

theorem writesReg_eq :
    WritesReg (.eq d a b) d s (fun v => v = truth s (decide ((s.readReg a).toNat = (s.readReg b).toNat))) :=
  writesReg_of_comparison (fun x y => x == y) rfl (beq_eq_decide_toNat ..)

theorem writesReg_neq :
    WritesReg (.neq d a b) d s (fun v => v = truth s (decide ((s.readReg a).toNat ≠ (s.readReg b).toNat))) :=
  writesReg_of_comparison (fun x y => x != y) rfl (bne_eq_decide_toNat ..)

theorem writesReg_slt :
    WritesReg (.slt d a b) d s (fun v => v = truth s (decide ((s.readReg a).toInt < (s.readReg b).toInt))) :=
  writesReg_of_comparison BitVec.slt rfl BitVec.slt_eq_decide

theorem writesReg_ult :
    WritesReg (.ult d a b) d s (fun v => v = truth s (decide ((s.readReg a).toNat < (s.readReg b).toNat))) :=
  writesReg_of_comparison BitVec.ult rfl BitVec.ult_eq_decide

theorem writesReg_sle :
    WritesReg (.sle d a b) d s (fun v => v = truth s (decide ((s.readReg a).toInt ≤ (s.readReg b).toInt))) :=
  writesReg_of_comparison BitVec.sle rfl BitVec.sle_eq_decide

theorem writesReg_ule :
    WritesReg (.ule d a b) d s (fun v => v = truth s (decide ((s.readReg a).toNat ≤ (s.readReg b).toNat))) :=
  writesReg_of_comparison BitVec.ule rfl BitVec.ule_eq_decide

end Comparisons

section Conditions

variable {i : Instr} {s : State} {d : Reg}

/-- What `truth` of a proposition is, where an instruction has written it (R140). -/
theorem WritesReg.of_truth {p : Prop} [Decidable p] (h : WritesReg i d s (fun v => v = truth s (decide p))) :
    WritesReg i d s (fun v => v = if p then s.params.cmpTrue else 0#32) :=
  h.imp fun _ hv => hv.trans (truth_decide s p)

/-- An instruction that only moves on leaves any register with its value. -/
theorem GoesTo.writesReg_keeps (h : GoesTo i s (s.pc + 4#32)) : WritesReg i d s (fun v => v = s.readReg d) := by
  obtain ⟨t, he, hpc, hregs, hrest⟩ := h
  exact ⟨t, he, hregs d List.not_mem_nil, hpc, fun r _ => hregs r List.not_mem_nil, hrest⟩

/-- MOVNZ in one formula: DST takes SRC2 when SRC1 is not zero, and else keeps its value (R111). -/
theorem writesReg_movnz {holds : Bool} {y c : Reg} (hz : isZero (s.readReg c) = !holds) :
    WritesReg (.movnz d c y) d s (fun v => v = if holds then s.readReg y else s.readReg d) := by
  have htake : (!isZero (s.readReg c)) = holds := by rw [hz, Bool.not_not]
  cases holds with
  | true => exact writesReg_of_condMove rfl htake
  | false => exact (goesTo_of_condMove rfl htake).writesReg_keeps

/-- After an instruction that writes what a comparison writes, MOVNZ and JUMPNZ on its DST do what the comparison says
(R111, R141, R222). -/
theorem WritesReg.drives_conditions {holds : Bool} (h : WritesReg i d s (fun v => v = truth s holds))
    (hwf : s.params.wf) :
    ∃ t, exec i s = .next t ∧
      (∀ x y : Reg, WritesReg (.movnz x d y) x t (fun v => v = if holds then t.readReg y else t.readReg x)) ∧
      (∀ r : BitVec 14, holds = false → GoesTo (.jumpnz d r) t (t.pc + 4#32)) ∧
      (∀ r : BitVec 14, holds = true → (relTarget t r).toNat % 4 = 0 → GoesTo (.jumpnz d r) t (relTarget t r)) := by
  obtain ⟨t, he, hd, _⟩ := h
  have hz : isZero (t.readReg d) = !holds := by rw [hd, isZero_truth hwf]
  have htaken : (!isZero (t.readReg d)) = holds := by rw [hz, Bool.not_not]
  refine ⟨t, he, fun x y => writesReg_movnz hz, fun r hfalse => ?_, fun r htrue haligned => ?_⟩
  · exact condJump_notTaken rfl (htaken.trans hfalse)
  · exact goesTo_of_transfer (condJump_taken rfl (htaken.trans htrue)) haligned

end Conditions

end Sys2Proof.Machine
end

section
/-! PROOFS. The obligations about arithmetic, logic and comparison (spec/43_alu.md), each a short use of the rules
above. -/

namespace Sys2Proof.Machine

/-- Settles O23: the function of each instruction, chosen before the state. -/
theorem aluCommonRule : Obligations.AluCommonRule := by
  simp only [Obligations.AluCommonRule, List.forall_mem_cons]
  exact ⟨commonRule_of_alu (fun _ x y => x + y) fun _ _ _ _ => rfl,
    commonRule_of_alu (fun _ x y => x - y) fun _ _ _ _ => rfl,
    commonRule_of_alu (fun _ x y => x * y) fun _ _ _ _ => rfl,
    commonRule_of_alu (fun _ x y => x &&& y) fun _ _ _ _ => rfl,
    commonRule_of_alu (fun _ x y => x ||| y) fun _ _ _ _ => rfl,
    commonRule_of_alu (fun _ x y => x ^^^ y) fun _ _ _ _ => rfl,
    commonRule_of_alu (fun _ x y => x <<< shiftAmount y) fun _ _ _ _ => rfl,
    commonRule_of_alu (fun _ x y => x >>> shiftAmount y) fun _ _ _ _ => rfl,
    commonRule_of_alu (fun _ x y => x.sshiftRight (shiftAmount y)) fun _ _ _ _ => rfl,
    commonRule_of_comparison (fun x y => x == y) fun _ _ _ _ => rfl,
    commonRule_of_comparison (fun x y => x != y) fun _ _ _ _ => rfl,
    commonRule_of_comparison BitVec.slt fun _ _ _ _ => rfl,
    commonRule_of_comparison BitVec.ult fun _ _ _ _ => rfl,
    commonRule_of_comparison BitVec.sle fun _ _ _ _ => rfl,
    commonRule_of_comparison BitVec.ule fun _ _ _ _ => rfl, List.forall_mem_nil _⟩

/-- Settles O24: the sum, difference and product as numbers. -/
theorem arithmeticResults : Obligations.ArithmeticResults := by
  refine ⟨spelledRRR_of_rrrInstr (op := .add) (fun _ _ _ => rfl) rfl rfl rfl,
    spelledRRR_of_rrrInstr (op := .sub) (fun _ _ _ => rfl) rfl rfl rfl,
    spelledRRR_of_rrrInstr (op := .mul) (fun _ _ _ => rfl) rfl rfl rfl, fun s d a b => ⟨?_, ?_, ?_⟩⟩
  · exact writesReg_of_alu (fun x y => x + y) rfl (BitVec.toNat_add ..)
  · exact writesReg_of_alu (fun x y => x - y) rfl (toNat_sub_exact ..)
  · exact writesReg_of_alu (fun x y => x * y) rfl ⟨BitVec.toNat_mul .., BitVec.toInt_mul ..⟩

/-- Settles O25: the bits of the results. -/
theorem logicResults : Obligations.LogicResults := by
  refine ⟨spelledRRR_of_rrrInstr (op := .and) (fun _ _ _ => rfl) rfl rfl rfl,
    spelledRRR_of_rrrInstr (op := .or) (fun _ _ _ => rfl) rfl rfl rfl,
    spelledRRR_of_rrrInstr (op := .xor) (fun _ _ _ => rfl) rfl rfl rfl, fun s d a b => ⟨?_, ?_, ?_⟩⟩
  · exact writesReg_of_alu (fun x y => x &&& y) rfl fun _ _ => BitVec.getLsbD_and
  · exact writesReg_of_alu (fun x y => x ||| y) rfl fun _ _ => BitVec.getLsbD_or
  · exact writesReg_of_alu (fun x y => x ^^^ y) rfl fun _ _ => BitVec.getLsbD_xor

/-- Settles O26: each shift multiplies or divides by a power of two. -/
theorem shiftResults : Obligations.ShiftResults := by
  refine ⟨spelledRRR_of_rrrInstr (op := .sll) (fun _ _ _ => rfl) rfl rfl rfl,
    spelledRRR_of_rrrInstr (op := .srl) (fun _ _ _ => rfl) rfl rfl rfl,
    spelledRRR_of_rrrInstr (op := .sra) (fun _ _ _ => rfl) rfl rfl rfl, fun s d a b => ⟨?_, ?_, ?_⟩⟩
  · exact writesReg_of_alu (fun x y => x <<< shiftAmount y) rfl (toNat_shiftLeft_shiftAmount ..)
  · exact writesReg_of_alu (fun x y => x >>> shiftAmount y) rfl (toNat_ushiftRight_shiftAmount ..)
  · exact writesReg_of_alu (fun x y => x.sshiftRight (shiftAmount y)) rfl (toInt_sshiftRight_shiftAmount ..)

/-- Settles O27: `truth` of each relation; NEQ is stated by the relation that fails. -/
theorem comparisonResults : Obligations.ComparisonResults := by
  refine ⟨spelledRRR_of_rrrInstr (op := .eq) (fun _ _ _ => rfl) rfl rfl rfl,
    spelledRRR_of_rrrInstr (op := .neq) (fun _ _ _ => rfl) rfl rfl rfl,
    spelledRRR_of_rrrInstr (op := .slt) (fun _ _ _ => rfl) rfl rfl rfl,
    spelledRRR_of_rrrInstr (op := .ult) (fun _ _ _ => rfl) rfl rfl rfl,
    spelledRRR_of_rrrInstr (op := .sle) (fun _ _ _ => rfl) rfl rfl rfl,
    spelledRRR_of_rrrInstr (op := .ule) (fun _ _ _ => rfl) rfl rfl rfl, fun s d a b => ?_⟩
  have hneq := (writesReg_neq s d a b).of_truth.imp fun _ hv => hv.trans (ite_not ..)
  exact ⟨(writesReg_eq s d a b).of_truth, hneq, (writesReg_slt s d a b).of_truth, (writesReg_ult s d a b).of_truth,
    (writesReg_sle s d a b).of_truth, (writesReg_ule s d a b).of_truth⟩

/-- Settles O28: each comparison writes `truth` of its relation, and that drives the conditions. -/
theorem comparisonsDriveConditions : Obligations.ComparisonsDriveConditions := by
  intro s d a b hwf
  simp only [List.forall_mem_cons]
  exact ⟨(writesReg_eq s d a b).drives_conditions hwf, (writesReg_neq s d a b).drives_conditions hwf,
    (writesReg_slt s d a b).drives_conditions hwf, (writesReg_ult s d a b).drives_conditions hwf,
    (writesReg_sle s d a b).drives_conditions hwf, (writesReg_ule s d a b).drives_conditions hwf,
    List.forall_mem_nil _⟩

end Sys2Proof.Machine
end

section
/-! PROOFS. The obligation about ADDI (spec/44_alu_imm.md). -/

namespace Sys2Proof.Machine

/-- ADDI writes to DST the sum that a load or store with the same operands forms as its effective address (R40, R160),
so what is known of `effAddr` speaks of ADDI too. -/
theorem exec_addi (s : State) (d a : Reg) (im : BitVec 14) :
    exec (.addi d a im) s = .next (s.writeReg d (effAddr s a im)).advance := rfl

/-- Settles O32: the sum in exact arithmetic is that of the effective address. -/
theorem addImmediateResult : Obligations.AddImmediateResult := fun s d a im =>
  writesReg_of_exec (exec_addi s d a im) (effAddr_exact s a im)

end Sys2Proof.Machine
end

section
/-! SUPPORT. The numbers that bytes spell side by side, and what the extensions make of a value that was read: the rules
that the statement about the loads (spec/45_load.md) rests on. -/

namespace Sys2Proof.Machine

/-- Appending a byte is multiplying by 256 and adding it (R32). -/
theorem toNat_append_byte {n : Nat} (x : BitVec n) (b : Byte) : (x ++ b).toNat = x.toNat * 256 + b.toNat := by
  rw [BitVec.toNat_append, ← Nat.shiftLeft_add_eq_or_of_lt b.isLt, Nat.shiftLeft_eq]

/-- The same for signed numbers: only the most significant piece, which has a bit, carries the sign (R32, R173). -/
theorem toInt_append_byte {n : Nat} (hn : n ≠ 0) (x : BitVec n) (b : Byte) :
    (x ++ b).toInt = x.toInt * 256 + b.toNat := by
  rw [BitVec.toInt_append, if_neg (by simpa using hn), Int.mul_comm]
  rfl

/-- A value that was read into a word is the word's low bits. -/
theorem lowBits_setWidth {n : Nat} (hn : n ≤ 32) (x : BitVec n) : (x.setWidth 32).extractLsb' 0 n = x := by
  rw [BitVec.extractLsb'_setWidth_of_le (by omega), BitVec.extractLsb'_eq_self]

/-- The zero extension of a half-word that was read keeps its number (R172). -/
theorem toNat_zext16_setWidth (h : BitVec 16) : (zext16 (h.setWidth 32)).toNat = h.toNat := by
  rw [zext16, lowBits_setWidth (by omega), BitVec.toNat_setWidth_of_le (by omega)]

/-- The zero extension of a byte that was read keeps its number (R174). -/
theorem toNat_zext8_setWidth (b : Byte) : (zext8 (b.setWidth 32)).toNat = b.toNat := by
  rw [zext8, lowBits_setWidth (by omega), BitVec.toNat_setWidth_of_le (by omega)]

/-- The sign extension of a half-word that was read keeps its signed number (R173). -/
theorem toInt_sext16_setWidth (h : BitVec 16) : (sext16 (h.setWidth 32)).toInt = h.toInt := by
  rw [sext16, lowBits_setWidth (by omega), BitVec.toInt_signExtend_of_le (by omega)]

/-- The sign extension of a byte that was read keeps its signed number (R175). -/
theorem toInt_sext8_setWidth (b : Byte) : (sext8 (b.setWidth 32)).toInt = b.toInt := by
  rw [sext8, lowBits_setWidth (by omega), BitVec.toInt_signExtend_of_le (by omega)]

/-- The number of a word that four bytes spell, most significant first (R32). -/
theorem toNat_word_of_bytes (b0 b1 b2 b3 : Byte) :
    (b0 ++ b1 ++ b2 ++ b3).toNat = ((b0.toNat * 256 + b1.toNat) * 256 + b2.toNat) * 256 + b3.toNat := by
  rw [toNat_append_byte, toNat_append_byte, toNat_append_byte]

end Sys2Proof.Machine
end

section
/-! PROOFS. The obligation about the loads (spec/45_load.md), a short use of the rules above. -/

namespace Sys2Proof.Machine

/-- Settles O34: at each width the read answers the bytes side by side, and the load writes that value, extended. -/
theorem loadResults : Obligations.LoadResults := by
  intro s d a im b0 b1 b2 b3
  refine ⟨fun hm h0 => ?byte, fun ha hm h0 h1 => ?halfWord, fun ha hm h0 h1 h2 h3 => ?word⟩
  case byte =>
    have hread := memRead_byte hm h0
    exact ⟨writesReg_of_load rfl hread (toNat_zext8_setWidth b0), writesReg_of_load rfl hread (toInt_sext8_setWidth b0)⟩
  case halfWord =>
    have hread := memRead_halfWord ha hm h0 h1
    refine ⟨writesReg_of_load rfl hread ?_, writesReg_of_load rfl hread ?_⟩
    · exact (toNat_zext16_setWidth (b0 ++ b1)).trans (toNat_append_byte b0 b1)
    · exact (toInt_sext16_setWidth (b0 ++ b1)).trans (toInt_append_byte (by omega) b0 b1)
  case word =>
    exact writesReg_of_load rfl (memRead_word ha hm h0 h1 h2 h3) (toNat_word_of_bytes b0 b1 b2 b3)

end Sys2Proof.Machine
end

section
/-! SUPPORT. What a store that completes has done, at any width: the rule that the statement about the three stores
(spec/46_store.md) rests on. -/

namespace Sys2Proof.Machine

section Stores

variable {n : Nat} {v a : Reg} {im : BitVec 14} {s t : State}

theorem store_of_memWrite (h : memWrite s (effAddr s a im) n (s.readReg v) = .next t) :
    store n v a im s = .next t.advance := by
  simp [store, h]

/-- The common rule of the stores (R194): with the three checks passed the store completes, each byte of the low `8n`
bits of SRC2 stands in its place, most significant first, and nothing else but `pc` has changed. -/
theorem store_completes (hn : n ≤ 4294967296) (ha : (effAddr s a im).toNat % n = 0) (hm : Mapped s (effAddr s a im) n)
    (hc : OutsideCode s (effAddr s a im) n) :
    ∃ t, store n v a im s = .next t ∧
      (∀ k < n, byteAt t (effAddr s a im) k = some ((s.readReg v).extractLsb' (8 * (n - 1 - k)) 8)) ∧
      t.pc = s.pc + 4#32 ∧ Frame [] (addrsOf (effAddr s a im) n) s t := by
  obtain ⟨u, hwrite⟩ := memWrite_completes (v := s.readReg v) ha hm hc
  obtain ⟨hframe, hpc⟩ := memWrite_frame hwrite
  have hbyte (k : Nat) (hk : k < n) := byteAt_memWrite hn hwrite hk
  have hadvance : u.advance.pc = s.pc + 4#32 := by rw [advance_pc, hpc]
  exact ⟨u.advance, store_of_memWrite hwrite, hbyte, hadvance, hframe⟩

end Stores

end Sys2Proof.Machine
end

section
/-! PROOFS. The obligation about the stores (spec/46_store.md), a short use of the rule above. -/

namespace Sys2Proof.Machine

/-- Settles O35: the common rule at the widths 1, 2 and 4, its bytes listed one by one. -/
theorem storeResults : Obligations.StoreResults := by
  intro s v a im
  refine ⟨fun hm hc => ?byte, fun ha hm hc => ?halfWord, fun ha hm hc => ?word⟩
  case byte =>
    obtain ⟨t, hstore, hbyte, hpc, hframe⟩ := store_completes (v := v) (by omega) (Nat.mod_one _) hm hc
    exact ⟨t, hstore, hbyte 0 (by omega), hpc, hframe⟩
  case halfWord =>
    obtain ⟨t, hstore, hbyte, hpc, hframe⟩ := store_completes (v := v) (by omega) ha hm hc
    exact ⟨t, hstore, hbyte 0 (by omega), hbyte 1 (by omega), hpc, hframe⟩
  case word =>
    obtain ⟨t, hstore, hbyte, hpc, hframe⟩ := store_completes (v := v) (by omega) ha hm hc
    exact ⟨t, hstore, hbyte 0 (by omega), hbyte 1 (by omega), hbyte 2 (by omega), hbyte 3 (by omega), hpc, hframe⟩

end Sys2Proof.Machine
end

section
/-! SUPPORT. The link that a completed call leaves in `r3` (R201, R211): the rule that the statement about returning from
a call (spec/47_jump_call.md) rests on. -/

namespace Sys2Proof.Machine

section Link

variable {s t : State}

/-- A transfer from the state with the link keeps the link: it changes no register. -/
theorem readReg_link_of_transfer {target : Word}
    (h : transfer (s.writeReg linkReg (s.pc + 4#32)) target = .next t) : t.readReg linkReg = s.pc + 4#32 := by
  obtain ⟨_, rfl⟩ := transfer_next h
  exact readReg_writeReg_same ..

theorem readReg_link_of_callAbs {x : BitVec 24} (h : exec (.callAbs x) s = .next t) :
    t.readReg linkReg = s.pc + 4#32 :=
  readReg_link_of_transfer h

/-- CALL SRC completes only with SRC other than `r3` (R212), and then links as CALL ABS_ADDR does. -/
theorem readReg_link_of_callReg {a : Reg} (h : exec (.callReg a) s = .next t) : t.readReg linkReg = s.pc + 4#32 := by
  rcases execCallReg_cases a s with ⟨_, hrefused⟩ | ⟨_, hcalls⟩
  · exact absurd (hrefused.symm.trans h) nofun
  · exact readReg_link_of_transfer (hcalls.symm.trans h)

end Link

end Sys2Proof.Machine
end

section
/-! PROOFS. The obligation about returning from a call (spec/47_jump_call.md), a short use of the rule above. -/

namespace Sys2Proof.Machine

/-- Settles O44: either call leaves `A + 4` in `r3`, and from an aligned `A` that is a target JUMP goes to (R21). -/
theorem returnAfterCall : Obligations.ReturnAfterCall := by
  intro i s t u hcall hpc hexec hkept
  have hlink : t.readReg linkReg = s.pc + 4#32 := by
    obtain ⟨x, rfl⟩ | ⟨a, rfl⟩ := hcall
    · exact readReg_link_of_callAbs hexec
    · exact readReg_link_of_callReg hexec
  have htarget : exec (.jumpReg 3) u = transfer u (s.pc + 4#32) := congrArg (transfer u) (hkept.trans hlink)
  exact goesTo_of_transfer htarget (aligned_add_four hpc)

end Sys2Proof.Machine
end

section
/-! SUPPORT. The word a fetch finds and a refusal names, and the stops an instruction can answer: the rules that the
statements about `call r3` (spec/48_indirect_jump_call.md) and about faults and refusals (spec/60_exceptions.md) rest
on. -/

namespace Sys2Proof.Machine

/-! ### The word at `pc` (R34, R212, R246) -/

/-- A table's word of full width is the word itself. -/
@[simp] theorem tableWord_toNat (w : Word) : tableWord 32 w.toNat = w := by
  rw [tableWord, Nat.mod_eq_of_lt w.isLt, BitVec.ofNat_toNat, BitVec.setWidth_eq]

/-- A word placed at an aligned, mapped `pc` is what the fetch gets (log entry 8). -/
theorem fetch_withFetchWord {s : State} {nbits w : Nat} (ha : s.pc.toNat % 4 = 0) (hm : Mapped s s.pc 4) :
    fetch (s.withFetchWord nbits w) = .ok (tableWord nbits w) := by
  have hlength : (accessAddrs s.pc 4).length = (toBigEndian 4 (tableWord nbits w)).length := by
    rw [accessAddrs_length, toBigEndian_length]
  exact fetch_eq_of_readAll ha (mapped_iff.mp hm)
    (Memory.readAll_writeAll s.mem (accessAddrs_nodup s.pc (by omega)) hlength)

/-- Where the fetch answers, the word a refusal names is the one in memory (R231). -/
theorem wordAtPc_of_fetch {s : State} {bits : Word} (i : Instr) (h : fetch s = .ok bits) : wordAtPc s i = bits := by
  simp [wordAtPc, h]

/-- CALL with SRC = 3 is refused whatever the state (R212). -/
theorem exec_callReg_three (s : State) :
    exec (.callReg 3) s = .refused (.ambiguousCallR3 (wordAtPc s (.callReg 3))) := rfl

/-! ### Which stops an instruction can answer (R231, R233) -/

/-- What `exec` may answer for `i`: a next state, of which `Effect` says more, or one of the stops that R231 and R233
allow this instruction. -/
inductive MayAnswer (i : Instr) : Result → Prop where
  | next (t : State) : MayAnswer i (.next t)
  | misalignedTarget (x : Word) (ht : transfersControl i = true) (hx : x.toNat % 4 ≠ 0) :
      MayAnswer i (.fault (.misalignedTarget x))
  | misalignedAccess (x : Word) (n : Nat) (hn : 1 < n) (hw : n = loadBytes i ∨ n = storeBytes i) :
      MayAnswer i (.fault (.misalignedAccess x n))
  | accessFault (x : Word) (n : Nat) (hn : 0 < n) (hw : n = loadBytes i ∨ n = storeBytes i) :
      MayAnswer i (.fault (.accessFault x n))
  | uninitialisedRead (x : Word) (n : Nat) (hn : 0 < n) (hw : n = loadBytes i) :
      MayAnswer i (.fault (.uninitialisedRead x n))
  | codeWriteRefused (x : Word) (n : Nat) (hn : 0 < n) (hw : n = storeBytes i) :
      MayAnswer i (.refused (.codeWriteRefused x n))
  | ambiguousCallR3 (w : Word) (hi : i = .callReg 3) : MayAnswer i (.refused (.ambiguousCallR3 w))

/-- A single byte is always aligned, so that a misaligned access is of more than one (R35). -/
theorem one_lt_of_misaligned {a : Word} {n : Nat} (hn : 0 < n) (h : accessAligned a n = false) : 1 < n := by
  have hne : n ≠ 1 := by
    rintro rfl
    exact absurd (accessAligned_iff.mpr (Nat.mod_one a.toNat)) (Bool.eq_false_iff.mp h)
  omega

section MayAnswer

variable {i : Instr} {s : State} {d v a : Reg} {im : BitVec 14}

theorem mayAnswer_transfer {x : Word} (ht : transfersControl i = true) : MayAnswer i (transfer s x) := by
  by_cases hx : x.toNat % 4 = 0
  · rw [transfer_of_aligned hx]; exact .next _
  · rw [transfer_of_misaligned hx]; exact .misalignedTarget x ht hx

theorem mayAnswer_condJump {taken : Bool} {r : BitVec 14} (ht : transfersControl i = true) :
    MayAnswer i (condJump taken r s) := by
  rcases condJump_cases taken r s with ⟨_, e⟩ | ⟨_, e⟩ <;> rw [e]
  · exact mayAnswer_transfer ht
  · exact .next _

/-- A load stops as its read does (R176). -/
theorem mayAnswer_of_load {ext : Word → Word} (hi : loadBytes i ≠ 0)
    (he : exec i s = load (loadBytes i) ext d a im s) : MayAnswer i (exec i s) := by
  have hpos : 0 < loadBytes i := Nat.pos_of_ne_zero hi
  have hread := memRead_cases s (effAddr s a im) (loadBytes i)
  rcases hread with ⟨hmis, e⟩ | ⟨_, _, e⟩ | ⟨_, _, _, e⟩ | ⟨_, _, _, _, e⟩ <;> simp only [he, load, e, raise]
  · exact .misalignedAccess _ _ (one_lt_of_misaligned hpos hmis) (.inl rfl)
  · exact .accessFault _ _ hpos (.inl rfl)
  · exact .uninitialisedRead _ _ hpos rfl
  · exact .next _

/-- A store stops as its write does (R194). -/
theorem mayAnswer_of_store (hi : storeBytes i ≠ 0) (he : exec i s = store (storeBytes i) v a im s) :
    MayAnswer i (exec i s) := by
  have hpos : 0 < storeBytes i := Nat.pos_of_ne_zero hi
  have hwrite := memWrite_cases s (effAddr s a im) (storeBytes i) (s.readReg v)
  rcases hwrite with ⟨hmis, e⟩ | ⟨_, _, e⟩ | ⟨_, _, _, e⟩ | ⟨_, _, _, e⟩ <;> simp only [he, store, e, raise]
  · exact .misalignedAccess _ _ (one_lt_of_misaligned hpos hmis) (.inr rfl)
  · exact .accessFault _ _ hpos (.inr rfl)
  · exact .codeWriteRefused _ _ hpos rfl
  · exact .next _

end MayAnswer

theorem mayAnswer_callReg (a : Reg) (s : State) : MayAnswer (.callReg a) (exec (.callReg a) s) := by
  by_cases ha : a = 3
  · subst ha; rw [exec_callReg_three]; exact .ambiguousCallR3 _ rfl
  · rw [execCallReg_of_ne s ha]; exact mayAnswer_transfer rfl

/-- Every instruction answers as `MayAnswer` allows: one that neither accesses memory nor transfers control never
stops. -/
theorem exec_mayAnswer (i : Instr) (s : State) : MayAnswer i (exec i s) := by
  cases i with
  | ld d a im | ldhs d a im | ldhu d a im | ldbs d a im | ldbu d a im => exact mayAnswer_of_load nofun rfl
  | st v a im | sth v a im | stb v a im => exact mayAnswer_of_store nofun rfl
  | jumpAbs x | callAbs x | jumpReg a => exact mayAnswer_transfer rfl
  | callReg a => exact mayAnswer_callReg a s
  | jumpz a r | jumpnz a r => exact mayAnswer_condJump rfl
  | _ => exact .next _

end Sys2Proof.Machine
end

section
/-! PROOFS. The obligations about `call r3` (spec/48_indirect_jump_call.md) and about the step and its stops
(spec/60_exceptions.md), each a short use of the rules above. -/

namespace Sys2Proof.Machine

/-- Settles O42: the refusal names the word at `pc`, which is the one the fetch got. -/
theorem callR3Refused : Obligations.CallR3Refused := by
  intro s bits hfetch
  rw [exec_callReg_three, wordAtPc_of_fetch _ hfetch]

/-- Settles O54: each stop that `MayAnswer` allows is one of those listed. -/
theorem whichInstructionsStop : Obligations.WhichInstructionsStop := by
  refine ⟨fun i s f hfault => ?faults, fun i s r hrefused => ?refusals⟩
  case faults =>
    cases hfault ▸ exec_mayAnswer i s with
    | misalignedTarget x ht hx => exact .inl ⟨ht, x, rfl, hx⟩
    | misalignedAccess x n hn hw => exact .inr (.inl ⟨x, n, rfl, hn, hw⟩)
    | accessFault x n hn hw => exact .inr (.inr (.inl ⟨x, n, rfl, hn, hw⟩))
    | uninitialisedRead x n hn hw => exact .inr (.inr (.inr ⟨x, n, rfl, hn, hw⟩))
  case refusals =>
    cases hrefused ▸ exec_mayAnswer i s with
    | codeWriteRefused x n hn hw => exact .inl ⟨x, n, rfl, hn, hw⟩
    | ambiguousCallR3 w hi => exact .inr ⟨hi, w, rfl⟩

/-- Settles O18: the fetch gets the placed word, and the decoder reads `i` back from it. -/
theorem stepRunsPlacedWord : Obligations.StepRunsPlacedWord := by
  intro s i hrunning haligned hmapped
  have hfetch : fetch (s.withFetchWord 32 (encode s.params.opcodeMap i).toNat) = .ok (encode s.params.opcodeMap i) :=
    (fetch_withFetchWord haligned hmapped).trans (congrArg _ (tableWord_toNat _))
  exact step_of_decode_ok hrunning hfetch (decodeWord_encode _ _ i)

end Sys2Proof.Machine
end
